-- ==== Sys2Proof/Word.lean ====
section
/-!
DEFINITION. The word types of the machine: bytes, 16-bit words and general-register numbers (R7, R10, R15).
-/

namespace Sys2Proof

/-- An 8-bit value: a memory byte, a general register, a timer, the constant `kk` (R10, R21, R25, R62). -/
abbrev Byte := BitVec 8

/-- A 16-bit value: an instruction word, `I`, `pc`, a call-stack entry, `FINFO` (R13, R15, R19, R24, R60). -/
abbrev Word := BitVec 16

/-- The number of a general register, 0x0..0xF (R8, R10). -/
abbrev Reg := Fin 16

end Sys2Proof
end

