-- ==== Sys2Proof/Config.lean ====
section
/-!
DEFINITION. The configuration `cfg` of R5, fixed at `power_on`, its constraints, and the free inputs of a
step. The default values stand in Machine/Defaults.lean.
-/

namespace Sys2Proof

/-- `PC_OVERFLOW_POLICY` (R5, R17, R186). -/
inductive OverflowPolicy where
  | wrapToOrigin
  | fault
deriving DecidableEq, Repr

/-- `SHIFT_SOURCE`: the register that 8xy6 and 8xyE shift (R5, R109, R111). -/
inductive ShiftSource where
  | vx
  | vy
deriving DecidableEq, Repr

/-- The configuration parameters of R5, under the spec's own names. -/
structure Config where
  pcOverflow  : OverflowPolicy
  displayW    : Nat
  displayH    : Nat
  fontBase    : Nat
  fontStride  : Nat
  fontData    : List Byte
  memFill     : Byte
  shiftSource : ShiftSource
deriving DecidableEq, Repr

/-- R5's constraints: a display of positive size, a font table of 16 glyphs of `FONT_STRIDE` bytes that
lies inside `FONT_REGION` (0x000..0x1FF). -/
abbrev Config.wf (c : Config) : Prop :=
  0 < c.displayW ∧ 0 < c.displayH ∧ c.fontData.length = 16 * c.fontStride ∧
    c.fontBase + 16 * c.fontStride ≤ 0x200

/-- The key levels of a step whose `keys` argument no pending operation gives: a FREE input (R160: "the core
assumes no relation between the `keys` of successive steps"); the argument is the operation counter.
Log entry 9. -/
opaque Config.freeKeys : Nat → BitVec 16

/-- The random byte of a step whose `rnd` argument no pending operation gives: a FREE input (R112: "a free
input of each step, under no law"); the argument is the operation counter. Log entry 9. -/
opaque Config.freeRnd : Nat → Byte

end Sys2Proof
end

