-- ==== Sys2Proof/Syntax.lean ====
section
/-!
DEFINITION. The 34 instructions of the decode table (R63), one constructor per row of
spec/opcode_table.json, in the table's order. Operands are those of R62: `x`, `y` register numbers, `nnn` a
12-bit address, `kk` an 8-bit constant, `n` a count of sprite rows (0..15 in a well-formed term,
WellFormed.lean).
-/

namespace Sys2Proof

/-- One constructor per row of R63. -/
inductive Instr where
  | cls                                   -- 00E0  CLS
  | ret                                   -- 00EE  RET
  | jp      (nnn : BitVec 12)             -- 1nnn  JP nnn
  | call    (nnn : BitVec 12)             -- 2nnn  CALL nnn
  | seByte  (x : Reg) (kk : Byte)         -- 3xkk  SE Vx, kk
  | sneByte (x : Reg) (kk : Byte)         -- 4xkk  SNE Vx, kk
  | seReg   (x y : Reg)                   -- 5xy0  SE Vx, Vy
  | ldByte  (x : Reg) (kk : Byte)         -- 6xkk  LD Vx, kk
  | addByte (x : Reg) (kk : Byte)         -- 7xkk  ADD Vx, kk
  | ldReg   (x y : Reg)                   -- 8xy0  LD Vx, Vy
  | orReg   (x y : Reg)                   -- 8xy1  OR Vx, Vy
  | andReg  (x y : Reg)                   -- 8xy2  AND Vx, Vy
  | xorReg  (x y : Reg)                   -- 8xy3  XOR Vx, Vy
  | addReg  (x y : Reg)                   -- 8xy4  ADD Vx, Vy
  | sub     (x y : Reg)                   -- 8xy5  SUB Vx, Vy
  | shr     (x y : Reg)                   -- 8xy6  SHR Vx, Vy
  | subn    (x y : Reg)                   -- 8xy7  SUBN Vx, Vy
  | shl     (x y : Reg)                   -- 8xyE  SHL Vx, Vy
  | sneReg  (x y : Reg)                   -- 9xy0  SNE Vx, Vy
  | ldI     (nnn : BitVec 12)             -- Annn  LD I, nnn
  | jpV0    (nnn : BitVec 12)             -- Bnnn  JP V0, nnn
  | rnd     (x : Reg) (kk : Byte)         -- Cxkk  RND Vx, kk
  | drw     (x y : Reg) (n : Nat)         -- Dxyn  DRW Vx, Vy, n
  | skp     (x : Reg)                     -- Ex9E  SKP Vx
  | sknp    (x : Reg)                     -- ExA1  SKNP Vx
  | ldVxDT  (x : Reg)                     -- Fx07  LD Vx, DT
  | ldVxK   (x : Reg)                     -- Fx0A  LD Vx, K
  | ldDTVx  (x : Reg)                     -- Fx15  LD DT, Vx
  | ldSTVx  (x : Reg)                     -- Fx18  LD ST, Vx
  | addI    (x : Reg)                     -- Fx1E  ADD I, Vx
  | ldF     (x : Reg)                     -- Fx29  LD F, Vx
  | ldB     (x : Reg)                     -- Fx33  LD B, Vx
  | stRegs  (x : Reg)                     -- Fx55  LD [I], Vx
  | ldRegs  (x : Reg)                     -- Fx65  LD Vx, [I]
deriving DecidableEq, Repr

end Sys2Proof
end

