-- ==== Sys2Proof/Decode.lean ====
section
/-!
DEFINITION. Decoding an instruction word (R61 to R65), total on all 65536 words and on any list of bytes,
rejecting by name; then the encoder, written from the same table (R63).
-/

namespace Sys2Proof

/-- Why a word is an unknown opcode: the classes that R65 lists, by family. -/
inductive Unknown where
  /-- `0nnn` other than 0x00E0 and 0x00EE. -/
  | family0
  /-- `5xyN` with `N != 0`. -/
  | family5
  /-- `8xyN` with `N` in 8..D or F. -/
  | family8
  /-- `9xyN` with `N != 0`. -/
  | family9
  /-- `ExKK` with `KK` not in 9E, A1. -/
  | familyE
  /-- `FxKK` with `KK` not in 07, 0A, 15, 18, 1E, 29, 33, 55, 65. -/
  | familyF
deriving DecidableEq, Repr

/-- Why a list of bytes holds no instruction at its head. -/
inductive Reject where
  /-- Fewer than the two bytes of R60. -/
  | truncated
  /-- The word is an unknown opcode (R65). -/
  | unknown (u : Unknown)
deriving DecidableEq, Repr

/-! ### Fields of a word (R8, R61) -/

/-- The top nibble `op[15:12]`. -/
def family (op : Word) : BitVec 4 := op.extractLsb' 12 4

/-- `x = op[11:8]`. -/
def fieldX (op : Word) : Reg := (op.extractLsb' 8 4).toFin

/-- `y = op[7:4]`. -/
def fieldY (op : Word) : Reg := (op.extractLsb' 4 4).toFin

/-- `n = op[3:0]`. -/
def fieldN (op : Word) : BitVec 4 := op.extractLsb' 0 4

/-- `kk = op[7:0]`. -/
def fieldKK (op : Word) : Byte := op.extractLsb' 0 8

/-- `nnn = op[11:0]`. -/
def fieldNNN (op : Word) : BitVec 12 := op.extractLsb' 0 12

/-! ### The decoder (R64) -/

/-- Family 0: both patterns are full words. -/
def decode0 (op : Word) : Except Unknown Instr :=
  if op = 0x00E0 then .ok .cls else if op = 0x00EE then .ok .ret else .error .family0

/-- Families 5 and 9: the low nibble is a fixed 0. -/
def decodeN0 (op : Word) (i : Instr) (u : Unknown) : Except Unknown Instr :=
  if fieldN op = 0x0 then .ok i else .error u

/-- Family 8, by the low nibble. -/
def decode8 (op : Word) : Except Unknown Instr :=
  match fieldN op with
  | 0x0#4 => .ok (.ldReg (fieldX op) (fieldY op))
  | 0x1#4 => .ok (.orReg (fieldX op) (fieldY op))
  | 0x2#4 => .ok (.andReg (fieldX op) (fieldY op))
  | 0x3#4 => .ok (.xorReg (fieldX op) (fieldY op))
  | 0x4#4 => .ok (.addReg (fieldX op) (fieldY op))
  | 0x5#4 => .ok (.sub (fieldX op) (fieldY op))
  | 0x6#4 => .ok (.shr (fieldX op) (fieldY op))
  | 0x7#4 => .ok (.subn (fieldX op) (fieldY op))
  | 0xE#4 => .ok (.shl (fieldX op) (fieldY op))
  | _ => .error .family8

/-- Family E, by the low byte. -/
def decodeE (op : Word) : Except Unknown Instr :=
  match fieldKK op with
  | 0x9E#8 => .ok (.skp (fieldX op))
  | 0xA1#8 => .ok (.sknp (fieldX op))
  | _ => .error .familyE

/-- Family F, by the low byte. -/
def decodeF (op : Word) : Except Unknown Instr :=
  match fieldKK op with
  | 0x07#8 => .ok (.ldVxDT (fieldX op))
  | 0x0A#8 => .ok (.ldVxK (fieldX op))
  | 0x15#8 => .ok (.ldDTVx (fieldX op))
  | 0x18#8 => .ok (.ldSTVx (fieldX op))
  | 0x1E#8 => .ok (.addI (fieldX op))
  | 0x29#8 => .ok (.ldF (fieldX op))
  | 0x33#8 => .ok (.ldB (fieldX op))
  | 0x55#8 => .ok (.stRegs (fieldX op))
  | 0x65#8 => .ok (.ldRegs (fieldX op))
  | _ => .error .familyF

/-- `Decode(op)` of R64. -/
def decode (op : Word) : Except Unknown Instr :=
  match family op with
  | 0x0#4 => decode0 op
  | 0x1#4 => .ok (.jp (fieldNNN op))
  | 0x2#4 => .ok (.call (fieldNNN op))
  | 0x3#4 => .ok (.seByte (fieldX op) (fieldKK op))
  | 0x4#4 => .ok (.sneByte (fieldX op) (fieldKK op))
  | 0x5#4 => decodeN0 op (.seReg (fieldX op) (fieldY op)) .family5
  | 0x6#4 => .ok (.ldByte (fieldX op) (fieldKK op))
  | 0x7#4 => .ok (.addByte (fieldX op) (fieldKK op))
  | 0x8#4 => decode8 op
  | 0x9#4 => decodeN0 op (.sneReg (fieldX op) (fieldY op)) .family9
  | 0xA#4 => .ok (.ldI (fieldNNN op))
  | 0xB#4 => .ok (.jpV0 (fieldNNN op))
  | 0xC#4 => .ok (.rnd (fieldX op) (fieldKK op))
  | 0xD#4 => .ok (.drw (fieldX op) (fieldY op) (fieldN op).toNat)
  | 0xE#4 => decodeE op
  | _     => decodeF op

/-! ### Bytes and words (R44, R45, R60) -/

/-- The word of two bytes in memory order: the byte at the lower address is `op[15:8]` (R44). -/
def wordOfBytes (hi lo : Byte) : Word := hi ++ lo

/-- The two bytes of a word in memory order (R44). -/
def bytesOfWord (op : Word) : List Byte := [op.extractLsb' 8 8, op.extractLsb' 0 8]

/-- The instruction at the head of a list of bytes, with the bytes after it (R60: every instruction is two
bytes). -/
def decodeBytes : List Byte → Except Reject (Instr × List Byte)
  | hi :: lo :: rest =>
    match decode (wordOfBytes hi lo) with
    | .ok i => .ok (i, rest)
    | .error u => .error (.unknown u)
  | _ => .error .truncated

/-- A word given as `nbits` bits numbered as spec/opcode_table.json numbers them: one big-endian word, the
bits from `nbits` up being 0. -/
def tableWord (nbits w : Nat) : Word := BitVec.ofNat 16 (w % 2 ^ nbits)

/-- The instruction the decoder reads from the table word `w`, laid out as the hardware stores it (R44). -/
def decodeTableWord (nbits w : Nat) : Option Instr :=
  match decodeBytes (bytesOfWord (tableWord nbits w)) with
  | .ok (i, _) => some i
  | .error _ => none

/-! ### The encoder (R61, R63) -/

/-- The 4-bit field that names register `r`. -/
def regField (r : Reg) : BitVec 4 := BitVec.ofFin r

/-- Format NNN: family, 12-bit address. -/
def encNNN (fam : BitVec 4) (nnn : BitVec 12) : Word := fam ++ nnn

/-- Formats XKK and X: family, register, byte. -/
def encXKK (fam : BitVec 4) (x : Reg) (kk : Byte) : Word := fam ++ (regField x ++ kk)

/-- Formats XY and XYN: family, two registers, low nibble. -/
def encXYN (fam : BitVec 4) (x y : Reg) (n : BitVec 4) : Word := fam ++ (regField x ++ (regField y ++ n))

/-- The instruction word of a well-formed instruction (R63). -/
def encode : Instr → Word
  | .cls => 0x00E0
  | .ret => 0x00EE
  | .jp nnn => encNNN 0x1 nnn
  | .call nnn => encNNN 0x2 nnn
  | .seByte x kk => encXKK 0x3 x kk
  | .sneByte x kk => encXKK 0x4 x kk
  | .seReg x y => encXYN 0x5 x y 0x0
  | .ldByte x kk => encXKK 0x6 x kk
  | .addByte x kk => encXKK 0x7 x kk
  | .ldReg x y => encXYN 0x8 x y 0x0
  | .orReg x y => encXYN 0x8 x y 0x1
  | .andReg x y => encXYN 0x8 x y 0x2
  | .xorReg x y => encXYN 0x8 x y 0x3
  | .addReg x y => encXYN 0x8 x y 0x4
  | .sub x y => encXYN 0x8 x y 0x5
  | .shr x y => encXYN 0x8 x y 0x6
  | .subn x y => encXYN 0x8 x y 0x7
  | .shl x y => encXYN 0x8 x y 0xE
  | .sneReg x y => encXYN 0x9 x y 0x0
  | .ldI nnn => encNNN 0xA nnn
  | .jpV0 nnn => encNNN 0xB nnn
  | .rnd x kk => encXKK 0xC x kk
  | .drw x y n => encXYN 0xD x y (BitVec.ofNat 4 n)
  | .skp x => encXKK 0xE x 0x9E
  | .sknp x => encXKK 0xE x 0xA1
  | .ldVxDT x => encXKK 0xF x 0x07
  | .ldVxK x => encXKK 0xF x 0x0A
  | .ldDTVx x => encXKK 0xF x 0x15
  | .ldSTVx x => encXKK 0xF x 0x18
  | .addI x => encXKK 0xF x 0x1E
  | .ldF x => encXKK 0xF x 0x29
  | .ldB x => encXKK 0xF x 0x33
  | .stRegs x => encXKK 0xF x 0x55
  | .ldRegs x => encXKK 0xF x 0x65

end Sys2Proof
end

