-- ==== Sys2Proof/Machine/Defaults.lean ====
section
/-!
DEFINITION. The default configuration of R5, with the font table of R27. The spec chose these values (D2,
D3, D5, D10, D18; log entries 2 to 6): every rule of the model is stated for any configuration.
-/

namespace Sys2Proof.Machine

/-- `FONT_DATA` of R27: the 16 glyphs in order, five bytes each, top row first. -/
def defaultFont : List Byte :=
  [0xF0, 0x90, 0x90, 0x90, 0xF0, 0x20, 0x60, 0x20, 0x20, 0x70] ++
  [0xF0, 0x10, 0xF0, 0x80, 0xF0, 0xF0, 0x10, 0xF0, 0x10, 0xF0] ++
  [0x90, 0x90, 0xF0, 0x10, 0x10, 0xF0, 0x80, 0xF0, 0x10, 0xF0] ++
  [0xF0, 0x80, 0xF0, 0x90, 0xF0, 0xF0, 0x10, 0x20, 0x40, 0x40] ++
  [0xF0, 0x90, 0xF0, 0x90, 0xF0, 0xF0, 0x90, 0xF0, 0x10, 0xF0] ++
  [0xF0, 0x90, 0xF0, 0x90, 0x90, 0xE0, 0x90, 0xE0, 0x90, 0xE0] ++
  [0xF0, 0x80, 0x80, 0x80, 0xF0, 0xE0, 0x90, 0x90, 0x90, 0xE0] ++
  [0xF0, 0x80, 0xF0, 0x80, 0xF0, 0xF0, 0x80, 0xF0, 0x80, 0x80]

/-- The defaults of R5. DESIGN CHOICE of the spec; display size, stride and font bytes are PRESUMED there
("from general knowledge, not in source"): log entries 2 to 6. -/
def defaultConfig : Config where
  pcOverflow  := .wrapToOrigin
  displayW    := 64
  displayH    := 32
  fontBase    := 0x000
  fontStride  := 5
  fontData    := defaultFont
  memFill     := 0x00
  shiftSource := .vx

end Sys2Proof.Machine
end

