-- ==== Sys2Proof/Machine/State.lean ====
section
/-!
DEFINITION. The state of the machine (spec/10_state.md) as plain data, its value after power-on (R210), the
operations of the embedding (R6) and what they return (R66, R183, R188, R212), and the reasons for which the
model itself stops.
-/

namespace Sys2Proof.Machine

/-- `MODE` (R22, R196). -/
inductive Mode where
  | running
  | awaitKey
  | faulted
deriving DecidableEq, Repr

/-- `FCAUSE`: the fault causes of R181, in the order of their codes 0 to 6. -/
inductive FaultCause where
  | none
  | memRangeFetch
  | memRangeRead
  | memRangeWrite
  | stackOverflow
  | stackUnderflow
  | pcOverflow
deriving DecidableEq, Repr

/-- What one operation returns to the embedding (R66 for a step, R212 for `loadProgram`). -/
inductive Report where
  /-- The operation returns nothing (`power_on`, `reset`, `decayTimers`, `keyDown`; R6). -/
  | silent
  /-- `Done`: a step executed an instruction (R66). -/
  | done
  /-- `DoneWithDiagnostic(addr, word)`: a step met an unknown opcode (R188). -/
  | diagnostic (addr word : Word)
  /-- `Fault(cause, info)` (R182). -/
  | fault (cause : FaultCause) (info : Word)
  /-- `StillFaulted(cause, info)` (R183). -/
  | stillFaulted (cause : FaultCause) (info : Word)
  /-- `Waiting` (R164). -/
  | waiting
  /-- `Loaded` (R212). -/
  | loaded
  /-- `ImageTooLarge` (R187, R212). -/
  | imageTooLarge
deriving DecidableEq, Repr

/-- The six operations of the embedding with their arguments (R6). A key index is a 4-bit value (R168). -/
inductive Operation where
  | powerOn (cfg : Config)
  | reset
  | loadProgram (bytes : List Byte)
  | step (keys : BitVec 16) (rnd : Byte)
  | decayTimers
  | keyDown (k : BitVec 4)
deriving DecidableEq, Repr

/-- Memory as the list of the bytes that differ from the power-on contents, by strictly rising address
(R25; canonical form `Memory.wf` in Machine/Ops.lean). -/
abbrev Memory := List Host.Cell

/-- The pixel array `FB`: rows from top to bottom, each its pixels from left to right, `true` is lit (R28). -/
abbrev FrameBuffer := List (List Bool)

/-- Reasons for which a run of the model would stop with a fault. There are none: every fault of the machine is
a state (`MODE = FAULTED`, R182, R192), hence a next state, after which the machine still answers to its
operations (R183). Safe (log entry 7). -/
inductive Fault where
deriving DecidableEq, Repr

/-- Reasons for which the model gives a step no meaning. -/
inductive Refusal where
  /-- Raised by an arm of `exec` whose instruction has no meaning yet; safe. No arm raises it. -/
  | notModelled (mnemonic : String)
  /-- Raised by a pending `power_on(cfg)` whose `cfg` breaks the constraints of R5 (an interface breach with no
  stated effect); safe (log entry 11). -/
  | badConfiguration
deriving DecidableEq, Repr

/-- The whole state: that of spec/10_state.md section 1, then the model's own three fields. -/
structure State where
  /-- The configuration, fixed at `power_on` (R5, R29). -/
  cfg     : Config
  /-- `V[0]`..`V[15]`; `VF` is `V[15]` (R10, R11). -/
  v       : Vector Byte 16
  /-- The address register `I` (R13, R14). -/
  i       : Word
  /-- The program counter (R15). -/
  pc      : Word
  /-- `S[0]`..`S[15]` (R19). -/
  stack   : Vector Word 16
  /-- `SP`, the depth 0..16 (R19). -/
  sp      : Fin 17
  /-- The delay timer (R21). -/
  dt      : Byte
  /-- The sound timer (R21). -/
  st      : Byte
  /-- `MODE` (R22). -/
  mode    : Mode
  /-- `KREG` (R23). -/
  kreg    : Reg
  /-- `FCAUSE` (R24). -/
  fcause  : FaultCause
  /-- `FINFO` (R24). -/
  finfo   : Word
  /-- `Mem` (R25). -/
  mem     : Memory
  /-- `FB` (R28). -/
  fb      : FrameBuffer
  /-- The MODEL's own: what the last operation returned; no operation reads it (log entry 10). -/
  out     : Report
  /-- The MODEL's own: the operations the embedding performs next, oldest first (R217; log entry 8). -/
  pending : List Operation
  /-- The MODEL's own: how many operations have been performed, the argument of the free inputs (log entry 9). -/
  tick    : Nat
deriving DecidableEq, Repr

/-- A pixel array with every pixel 0, `H` rows by `W` columns (R28, R141). -/
def blankFB (cfg : Config) : FrameBuffer := List.replicate cfg.displayH (List.replicate cfg.displayW false)

/-- The machine after `power_on(cfg)` (R210): registers 0, `pc` at the origin, memory at its power-on contents,
every pixel 0. Nothing is pending; the values of `out`, `pending`, `tick` are the model's (log entries 8 to 10). -/
def State.powerOn (cfg : Config) : State where
  cfg     := cfg
  v       := Vector.replicate 16 0
  i       := 0
  pc      := 0x200
  stack   := Vector.replicate 16 0
  sp      := 0
  dt      := 0
  st      := 0
  mode    := .running
  kreg    := 0
  fcause  := .none
  finfo   := 0
  mem     := []
  fb      := blankFB cfg
  out     := .silent
  pending := []
  tick    := 0

/-- The machine right after power-on with the default configuration (R5, R210). The operation `reset()` of R211,
which keeps `Mem` and `FB`, is `resetOp` in Machine/HostOps.lean. -/
def State.reset : State := State.powerOn defaultConfig

end Sys2Proof.Machine
end

