-- ==== Sys2Proof/Machine/Ops.lean ====
section
/-!
DEFINITION. The named operations over memory, registers, the program counter and the call stack, raising a fault
(R182), and committing an instruction's writes all at once or not at all (R48).
-/

namespace Sys2Proof.Machine

/-! ### Memory (R25, R26, R40 to R43) -/

/-- What a byte nothing has written reads as: the power-on contents, `FONT_DATA` at `FONT_BASE` and `MEM_FILL`
elsewhere (R26, R210). Log entry 4. -/
def background (cfg : Config) (a : Nat) : Byte :=
  if cfg.fontBase ≤ a then (cfg.fontData[a - cfg.fontBase]?).getD cfg.memFill else cfg.memFill

/-- The entry of a memory for an address. -/
def Memory.lookup : Memory → Nat → Option Byte
  | [], _ => none
  | c :: m, a => if c.1 = a then some c.2 else Memory.lookup m a

/-- Enter a byte at its place in the rising order. -/
def Memory.insert : Memory → Nat → Byte → Memory
  | [], a, b => [(a, b)]
  | c :: m, a, b =>
    if a < c.1 then (a, b) :: c :: m
    else if c.1 = a then (a, b) :: m
    else c :: Memory.insert m a b

/-- Remove the entry of an address. -/
def Memory.erase (m : Memory) (a : Nat) : Memory := m.filter (fun c => c.1 ≠ a)

/-- `Mem[a]`. -/
def Memory.read (cfg : Config) (m : Memory) (a : Nat) : Byte := (m.lookup a).getD (background cfg a)

/-- `Mem[a] <- b`, in canonical form: an entry equal to what an unlisted address reads as is not listed. -/
def Memory.write (cfg : Config) (m : Memory) (a : Nat) (b : Byte) : Memory :=
  if b = background cfg a then m.erase a else m.insert a b

/-- The canonical form: addresses strictly rising, all inside the address space (R25), no entry equal to what an
unlisted address reads as. -/
abbrev Memory.wf (cfg : Config) (m : Memory) : Prop :=
  m.Pairwise (fun c d => c.1 < d.1) ∧ ∀ c ∈ m, c.1 ≤ 0xFFF ∧ c.2 ≠ background cfg c.1

/-- The bytes at `a`, `a+1`, .., `a+n-1`. -/
def Memory.readBytes (cfg : Config) (m : Memory) (a n : Nat) : List Byte :=
  (List.range n).map (fun k => m.read cfg (a + k))

/-- Write bytes at `a`, `a+1`, .. in ascending order (R45). -/
def Memory.writeBytes (cfg : Config) (m : Memory) (a : Nat) : List Byte → Memory
  | [] => m
  | b :: bs => Memory.writeBytes cfg (m.write cfg a b) (a + 1) bs

/-- `Mem[a]` in a state. -/
def State.byteAt (s : State) (a : Nat) : Byte := s.mem.read s.cfg a

/-! ### General registers (R10, R11) -/

/-- The register number of `VF` (R11). -/
def vf : Reg := 15

/-- `V[x]`. -/
def State.getV (s : State) (x : Reg) : Byte := s.v[x.val]

/-- `V[x] <- b`. -/
def State.setV (s : State) (x : Reg) (b : Byte) : State := { s with v := s.v.set x.val b }

/-- The registers with `V[k]`, `V[k+1]`, .. replaced by the listed bytes (Fx65, R125). -/
def setRegsFrom (v : Vector Byte 16) (k : Nat) : List Byte → Vector Byte 16
  | [] => v
  | b :: bs => setRegsFrom (if h : k < 16 then v.set k b h else v) (k + 1) bs

/-! ### Faults (R181, R182) -/

/-- What a rule raises: a cause and its information word (R181). -/
structure Trap where
  cause : FaultCause
  info  : Word
deriving DecidableEq, Repr

/-- The numeric code of a cause (R181). -/
def FaultCause.code : FaultCause → Nat
  | .none => 0
  | .memRangeFetch => 1
  | .memRangeRead => 2
  | .memRangeWrite => 3
  | .stackOverflow => 4
  | .stackUnderflow => 5
  | .pcOverflow => 6

/-- `raise F(info)` on the state at entry (R182): nothing changes but `MODE`, `FCAUSE`, `FINFO`, and the step
returns `Fault(FCAUSE, FINFO)`. There is no handler (R192) and no return from a fault (R193); only `reset()` and
`power_on()` leave `FAULTED` (Machine/HostOps.lean). -/
def State.raise (s : State) (t : Trap) : State :=
  { s with mode := .faulted, fcause := t.cause, finfo := t.info, out := .fault t.cause t.info }

/-- The end of an instruction (R48, R66 step 6): `r` is what its rule yields from the state at entry `s`, the state
with all its writes or the fault it raises; the writes commit together and the step returns `report`, or none
does. -/
def State.settle (s : State) (report : Report) (r : Except Trap State) : State :=
  match r with
  | .ok t => { t with out := report }
  | .error e => s.raise e

/-- The outcome of a decoded instruction: `Done`, or its fault, both a next state (log entry 7). -/
def commit (s : State) (r : Except Trap State) : Host.Outcome State Fault Refusal := .next (s.settle .done r)

/-! ### The program counter (R16, R17) -/

/-- `SetPC(v)` of R17: the overflow policy on the value about to be written. -/
def setPC (v : Nat) (s : State) : Except Trap State :=
  if v ≤ 0xFFF then .ok { s with pc := BitVec.ofNat 16 v }
  else match s.cfg.pcOverflow with
    | .wrapToOrigin => .ok { s with pc := 0x200 }
    | .fault => .error ⟨.pcOverflow, BitVec.ofNat 16 v⟩

/-- `NextPC()`: `SetPC(pc + 2)` (R9). -/
def nextPC (s : State) : Except Trap State := setPC (s.pc.toNat + 2) s

/-- `Skip()`: `SetPC(pc + 4)` (R9, R88). -/
def skip (s : State) : Except Trap State := setPC (s.pc.toNat + 4) s

/-- The end of a conditional skip: `Skip()` when the condition holds, else `NextPC()` (R16). -/
def skipIf (c : Bool) (s : State) : Except Trap State := if c then skip s else nextPC s

/-! ### The call stack (R19, R20) -/

/-- `Push(v)` of R20. -/
def push (v : Word) (s : State) : Except Trap State :=
  if h : s.sp.val < 16 then
    .ok { s with stack := s.stack.set s.sp.val v h, sp := ⟨s.sp.val + 1, by omega⟩ }
  else .error ⟨.stackOverflow, s.pc⟩

/-- `Pop()` of R20: the popped value and the state after; the entry keeps its value. -/
def pop (s : State) : Except Trap (Word × State) :=
  if 0 < s.sp.val then
    .ok (s.stack[s.sp.val - 1], { s with sp := ⟨s.sp.val - 1, by omega⟩ })
  else .error ⟨.stackUnderflow, s.pc⟩

/-! ### Memory accesses of an instruction (R42 to R44, R56, R126) -/

/-- Whether every byte of an access of `n` bytes at `a` lies in the address space (R56). -/
def inRange (a n : Nat) : Bool := decide (n = 0 ∨ a + n ≤ 0x1000)

/-- The range check made before an access of `n` bytes at `a`; the fault carries the first address beyond 0xFFF
(R42, R43, R181; log entry 21). -/
def checkRange (cause : FaultCause) (a n : Nat) : Except Trap Unit :=
  if inRange a n then .ok () else .error ⟨cause, BitVec.ofNat 16 (max a 0x1000)⟩

/-- `MemRead` of `n` bytes at `a`, checked (R42, R126). -/
def loadBytes (a n : Nat) (s : State) : Except Trap (List Byte) :=
  match checkRange .memRangeRead a n with
  | .ok _ => .ok (s.mem.readBytes s.cfg a n)
  | .error e => .error e

/-- `MemWrite` of bytes at `a` up, checked before any is written (R43, R126). -/
def storeBytes (a : Nat) (bs : List Byte) (s : State) : Except Trap State :=
  match checkRange .memRangeWrite a bs.length with
  | .ok _ => .ok { s with mem := s.mem.writeBytes s.cfg a bs }
  | .error e => .error e

/-- `Fetch()` of R44: the big-endian word at `pc`, `pc + 1`. -/
def fetch (s : State) : Except Trap Word :=
  if s.pc.toNat + 1 ≤ 0xFFF then .ok (s.byteAt s.pc.toNat ++ s.byteAt (s.pc.toNat + 1))
  else .error ⟨.memRangeFetch, s.pc⟩

end Sys2Proof.Machine
end

