-- ==== Sys2Proof/Machine/Operands.lean ====
section
/-!
DEFINITION. The operands that a rule computes from the registers, the configuration or the inputs of the step
(R62, R109, R112, R122 to R124, R160, R161), and what the skip conditions compare.
-/

namespace Sys2Proof.Machine

/-- `zext_16(nnn)`: a 12-bit address as a 16-bit value (R62, R120). -/
def zext12 (nnn : BitVec 12) : Word := nnn.setWidth 16

/-- The operand of 8xy6 and 8xyE: `V[x]`, or `V[y]` when `cfg.SHIFT_SOURCE = VY` (R109, R111). -/
def State.shiftOperand (s : State) (x y : Reg) : Byte :=
  match s.cfg.shiftSource with
  | .vx => s.getV x
  | .vy => s.getV y

/-- The `keys` argument of the step in progress (R160): that of the pending operation, else a free input. -/
def State.keys (s : State) : BitVec 16 :=
  match s.pending with
  | .step keys _ :: _ => keys
  | _ => Config.freeKeys s.tick

/-- The `rnd` argument of the step in progress (R112): that of the pending operation, else a free input. -/
def State.rnd (s : State) : Byte :=
  match s.pending with
  | .step _ rnd :: _ => rnd
  | _ => Config.freeRnd s.tick

/-- `V[x] & 0x0F`: the digit of Fx29 and the key index of Ex9E, ExA1 (R122, R161, R162). -/
def State.lowNibble (s : State) (x : Reg) : BitVec 4 := (s.getV x).setWidth 4

/-- `keys[k]` for `k = V[x] & 0x0F` (R161, R162). -/
def State.keyIsDown (s : State) (x : Reg) : Bool := s.keys.getLsbD (s.lowNibble x).toNat

/-- `(cfg.FONT_BASE + cfg.FONT_STRIDE * d) & 0x0FFF` (R122). -/
def glyphAddress (cfg : Config) (d : BitVec 4) : Word :=
  BitVec.ofNat 16 ((cfg.fontBase + cfg.fontStride * d.toNat) % 0x1000)

/-- `(I + V[x]) & 0x0FFF` (R121). -/
def State.indexSum (s : State) (x : Reg) : Word := BitVec.ofNat 16 ((s.i.toNat + (s.getV x).toNat) % 0x1000)

/-- The decimal digits that Fx33 stores: hundreds, tens, ones (R123). -/
def decimalDigits (b : Byte) : List Byte :=
  [BitVec.ofNat 8 (b.toNat / 100), BitVec.ofNat 8 (b.toNat / 10 % 10), BitVec.ofNat 8 (b.toNat % 10)]

/-- `V[0]`..`V[x]`, inclusive, in order (R124). -/
def State.regsUpTo (s : State) (x : Reg) : List Byte := s.v.toList.take (x.val + 1)

end Sys2Proof.Machine
end

