-- ==== Sys2Proof/Machine/Flags.lean ====
section
/-!
DEFINITION. The flag values that the instructions write to `VF` (R30, R106 to R111, R144) and the order in which a
flag-writing instruction writes (R113).
-/

namespace Sys2Proof.Machine

/-- `bool(c)`: 1 when the condition holds, else 0 (R9). -/
def bool (c : Bool) : Byte := if c then 1 else 0

/-- Carry out of bit 7: `bool(a + b > 255)` (R106). -/
def carryFlag (a b : Byte) : Byte := bool (decide (255 < a.toNat + b.toNat))

/-- Not borrow of `a - b`: `bool(a >= b)` (R107, R108, R110). -/
def notBorrowFlag (a b : Byte) : Byte := bool (decide (b.toNat ≤ a.toNat))

/-- The bit that 8xy6 shifts out: bit 0 of the operand (R109). -/
def shrFlag (a : Byte) : Byte := bool (a.getLsbD 0)

/-- The bit that 8xyE shifts out: bit 7 of the operand (R111). -/
def shlFlag (a : Byte) : Byte := bool (a.getLsbD 7)

/-- `V[x] <- result`, then `VF <- flag`: the flag is written last and wins when `x = 15` (R113). -/
def State.setResultAndFlag (s : State) (x : Reg) (result flag : Byte) : State := (s.setV x result).setV vf flag

end Sys2Proof.Machine
end

