-- ==== Sys2Proof/Machine/Alu.lean ====
section
/-!
DEFINITION. Register loads, the ALU and the random byte: 6xkk, 7xkk, 8xy0..8xy7, 8xyE, Cxkk
(spec/41_load_alu.md). All arithmetic is modulo 256 (R114).
-/

namespace Sys2Proof.Machine

/-- 6xkk (R100). -/
def execLdByte (x : Reg) (kk : Byte) (s : State) : Host.Outcome State Fault Refusal :=
  commit s (nextPC (s.setV x kk))

/-- 7xkk (R101): no flag. -/
def execAddByte (x : Reg) (kk : Byte) (s : State) : Host.Outcome State Fault Refusal :=
  commit s (nextPC (s.setV x (s.getV x + kk)))

/-- 8xy0 (R102). -/
def execLdReg (x y : Reg) (s : State) : Host.Outcome State Fault Refusal :=
  commit s (nextPC (s.setV x (s.getV y)))

/-- 8xy1 (R103). -/
def execOrReg (x y : Reg) (s : State) : Host.Outcome State Fault Refusal :=
  commit s (nextPC (s.setV x (s.getV x ||| s.getV y)))

/-- 8xy2 (R104). -/
def execAndReg (x y : Reg) (s : State) : Host.Outcome State Fault Refusal :=
  commit s (nextPC (s.setV x (s.getV x &&& s.getV y)))

/-- 8xy3 (R105). -/
def execXorReg (x y : Reg) (s : State) : Host.Outcome State Fault Refusal :=
  commit s (nextPC (s.setV x (s.getV x ^^^ s.getV y)))

/-- 8xy4 (R106). -/
def execAddReg (x y : Reg) (s : State) : Host.Outcome State Fault Refusal :=
  commit s (nextPC (s.setResultAndFlag x (s.getV x + s.getV y) (carryFlag (s.getV x) (s.getV y))))

/-- 8xy5 (R107). -/
def execSub (x y : Reg) (s : State) : Host.Outcome State Fault Refusal :=
  commit s (nextPC (s.setResultAndFlag x (s.getV x - s.getV y) (notBorrowFlag (s.getV x) (s.getV y))))

/-- 8xy6 (R109): a logical shift by one. -/
def execShr (x y : Reg) (s : State) : Host.Outcome State Fault Refusal :=
  commit s (nextPC (s.setResultAndFlag x (s.shiftOperand x y >>> 1) (shrFlag (s.shiftOperand x y))))

/-- 8xy7 (R110): the destination is still `V[x]`. -/
def execSubn (x y : Reg) (s : State) : Host.Outcome State Fault Refusal :=
  commit s (nextPC (s.setResultAndFlag x (s.getV y - s.getV x) (notBorrowFlag (s.getV y) (s.getV x))))

/-- 8xyE (R111). -/
def execShl (x y : Reg) (s : State) : Host.Outcome State Fault Refusal :=
  commit s (nextPC (s.setResultAndFlag x (s.shiftOperand x y <<< 1) (shlFlag (s.shiftOperand x y))))

/-- Cxkk (R112): the `rnd` input of this step AND `kk`. -/
def execRnd (x : Reg) (kk : Byte) (s : State) : Host.Outcome State Fault Refusal :=
  commit s (nextPC (s.setV x (s.rnd &&& kk)))

end Sys2Proof.Machine
end

