-- ==== Sys2Proof/Machine/Control.lean ====
section
/-!
DEFINITION. Control transfer and the call-stack controller: 00EE, 1nnn, 2nnn, 3xkk, 4xkk, 5xy0, 9xy0, Bnnn
(spec/40_control_flow.md).
-/

namespace Sys2Proof.Machine

/-- 00EE (R80): pop, then `SetPC` of the popped value. -/
def execRet (s : State) : Host.Outcome State Fault Refusal :=
  commit s (match pop s with
    | .ok (r, t) => setPC r.toNat t
    | .error e => .error e)

/-- 1nnn (R81). -/
def execJp (nnn : BitVec 12) (s : State) : Host.Outcome State Fault Refusal :=
  commit s (.ok { s with pc := zext12 nnn })

/-- 2nnn (R82): the pushed value is `pc + 2`, not passed through the overflow policy. -/
def execCall (nnn : BitVec 12) (s : State) : Host.Outcome State Fault Refusal :=
  commit s (match push (s.pc + 2) s with
    | .ok t => .ok { t with pc := zext12 nnn }
    | .error e => .error e)

/-- 3xkk (R83). -/
def execSeByte (x : Reg) (kk : Byte) (s : State) : Host.Outcome State Fault Refusal :=
  commit s (skipIf (decide (s.getV x = kk)) s)

/-- 4xkk (R84). -/
def execSneByte (x : Reg) (kk : Byte) (s : State) : Host.Outcome State Fault Refusal :=
  commit s (skipIf (decide (s.getV x ≠ kk)) s)

/-- 5xy0 (R85). -/
def execSeReg (x y : Reg) (s : State) : Host.Outcome State Fault Refusal :=
  commit s (skipIf (decide (s.getV x = s.getV y)) s)

/-- 9xy0 (R86). -/
def execSneReg (x y : Reg) (s : State) : Host.Outcome State Fault Refusal :=
  commit s (skipIf (decide (s.getV x ≠ s.getV y)) s)

/-- Bnnn (R87): the unreduced sum goes through `SetPC`. -/
def execJpV0 (nnn : BitVec 12) (s : State) : Host.Outcome State Fault Refusal :=
  commit s (setPC (nnn.toNat + (s.getV 0).toNat) s)

end Sys2Proof.Machine
end

