-- ==== Sys2Proof/Machine/Display.lean ====
section
/-!
DEFINITION. The sprite collision detector and its two instructions, 00E0 and Dxyn (spec/43_display_sprite.md).
-/

namespace Sys2Proof.Machine

/-! ### The detector (R140 to R142) -/

/-- `FB[r][c]` (R28). -/
def pixelAt (fb : FrameBuffer) (r c : Nat) : Bool := ((fb[r]?).bind (fun row => row[c]?)).getD false

/-- `FB[r][c] <- FB[r][c] ^ 1`. -/
def flipPixel (fb : FrameBuffer) (r c : Nat) : FrameBuffer := fb.modify r (fun row => row.modify c not)

/-- One 1 bit drawn at row `r`, column `c`: a collision when the pixel is lit, and the pixel flips (R142). The pair
is the collision so far and the pixel array. -/
def drawPixel (r c : Nat) (acc : Bool × FrameBuffer) : Bool × FrameBuffer :=
  (acc.1 || pixelAt acc.2 r c, flipPixel acc.2 r c)

/-- One bit of a sprite row: a 0 bit neither changes nor tests its pixel (R142). -/
def drawBit (bit : Bool) (r c : Nat) (acc : Bool × FrameBuffer) : Bool × FrameBuffer :=
  if bit then drawPixel r c acc else acc

/-- `drawSpriteRow(rowBits, x, y)` of R142 on a display of `w` columns and `h` rows: bit 7 is the leftmost pixel
(log entry 14), both axes wrap, recomputed for each pixel. -/
def drawSpriteRow (w h : Nat) (rowBits : Byte) (x y : Nat) (fb : FrameBuffer) : Bool × FrameBuffer :=
  (List.range 8).foldl (fun acc j => drawBit (rowBits.getLsbD (7 - j)) (y % h) ((x + j) % w) acc) (false, fb)

/-- The rows of a sprite from `y` down, top row first, their collisions ORed (R144). -/
def drawRows (w h x : Nat) : Nat → List Byte → Bool × FrameBuffer → Bool × FrameBuffer
  | _, [], acc => acc
  | y, b :: bs, acc =>
    drawRows w h x (y + 1) bs
      (acc.1 || (drawSpriteRow w h b x y acc.2).1, (drawSpriteRow w h b x y acc.2).2)

/-- A whole sprite with its top left pixel at column `x`, row `y` (R144). -/
def drawSprite (cfg : Config) (rows : List Byte) (x y : Nat) (fb : FrameBuffer) : Bool × FrameBuffer :=
  drawRows cfg.displayW cfg.displayH x y rows (false, fb)

/-! ### Instructions -/

/-- 00E0 (R141, R143). -/
def execCls (s : State) : Host.Outcome State Fault Refusal :=
  commit s (nextPC { s with fb := blankFB s.cfg })

/-- Dxyn (R144): coordinates and sprite bytes are read at entry; `VF` is the collision, written even when `n = 0`. -/
def execDrw (x y : Reg) (n : Nat) (s : State) : Host.Outcome State Fault Refusal :=
  commit s (match loadBytes s.i.toNat n s with
    | .ok rows =>
      let drawn := drawSprite s.cfg rows (s.getV x).toNat (s.getV y).toNat s.fb
      nextPC ({ s with fb := drawn.2 }.setV vf (bool drawn.1))
    | .error e => .error e)

end Sys2Proof.Machine
end

