-- ==== Sys2Proof/Machine/Index.lean ====
section
/-!
DEFINITION. The address register and the memory instructions: Annn, Fx1E, Fx29, Fx33, Fx55, Fx65
(spec/42_index_memory.md). The only addressing mode is `I + k`, unmasked; `I` is never changed by a memory
instruction (R126).
-/

namespace Sys2Proof.Machine

/-- Annn (R120). -/
def execLdI (nnn : BitVec 12) (s : State) : Host.Outcome State Fault Refusal :=
  commit s (nextPC { s with i := zext12 nnn })

/-- Fx1E (R121): masked to 12 bits, no flag. -/
def execAddI (x : Reg) (s : State) : Host.Outcome State Fault Refusal :=
  commit s (nextPC { s with i := s.indexSum x })

/-- Fx29 (R122): computed, not looked up. -/
def execLdF (x : Reg) (s : State) : Host.Outcome State Fault Refusal :=
  commit s (nextPC { s with i := glyphAddress s.cfg (s.lowNibble x) })

/-- Fx33 (R123). -/
def execLdB (x : Reg) (s : State) : Host.Outcome State Fault Refusal :=
  commit s (match storeBytes s.i.toNat (decimalDigits (s.getV x)) s with
    | .ok t => nextPC t
    | .error e => .error e)

/-- Fx55 (R124). -/
def execStRegs (x : Reg) (s : State) : Host.Outcome State Fault Refusal :=
  commit s (match storeBytes s.i.toNat (s.regsUpTo x) s with
    | .ok t => nextPC t
    | .error e => .error e)

/-- Fx65 (R125). -/
def execLdRegs (x : Reg) (s : State) : Host.Outcome State Fault Refusal :=
  commit s (match loadBytes s.i.toNat (x.val + 1) s with
    | .ok bs => nextPC { s with v := setRegsFrom s.v 0 bs }
    | .error e => .error e)

end Sys2Proof.Machine
end

