-- ==== Sys2Proof/Machine/Keys.lean ====
section
/-!
DEFINITION. The key instructions Ex9E, ExA1, Fx0A and the timer instructions Fx07, Fx15, Fx18
(spec/44_keys_timers.md).
-/

namespace Sys2Proof.Machine

/-- Ex9E (R161). -/
def execSkp (x : Reg) (s : State) : Host.Outcome State Fault Refusal :=
  commit s (skipIf (s.keyIsDown x) s)

/-- ExA1 (R162). -/
def execSknp (x : Reg) (s : State) : Host.Outcome State Fault Refusal :=
  commit s (skipIf (!s.keyIsDown x) s)

/-- Fx0A (R163): the wait begins and `pc` advances; `V[x]` is written by the later `keyDown` (R168). -/
def execLdVxK (x : Reg) (s : State) : Host.Outcome State Fault Refusal :=
  commit s (nextPC { s with kreg := x, mode := .awaitKey })

/-- Fx07 (R170). -/
def execLdVxDT (x : Reg) (s : State) : Host.Outcome State Fault Refusal :=
  commit s (nextPC (s.setV x s.dt))

/-- Fx15 (R171). -/
def execLdDTVx (x : Reg) (s : State) : Host.Outcome State Fault Refusal :=
  commit s (nextPC { s with dt := s.getV x })

/-- Fx18 (R172). -/
def execLdSTVx (x : Reg) (s : State) : Host.Outcome State Fault Refusal :=
  commit s (nextPC { s with st := s.getV x })

end Sys2Proof.Machine
end

