-- ==== Sys2Proof/Machine/HostOps.lean ====
section
/-!
DEFINITION. The operations of the embedding other than `step` (R6): `power_on`, `reset()`, `loadProgram`,
`decayTimers()`, `keyDown(k)`, and the output `sound_active`. Each happens whole, between instructions (R48, R191).
-/

namespace Sys2Proof.Machine

/-- `power_on(cfg)` (R210); the embedding's own operations go on from where they are. -/
def powerOnOp (cfg : Config) (s : State) : State :=
  { State.powerOn cfg with pending := s.pending, tick := s.tick }

/-- `reset()` (R211): registers, stack, timers, mode and fault record as after power-on; `Mem`, `FB` and `cfg` are
unchanged. -/
def resetOp (s : State) : State :=
  { powerOnOp s.cfg s with mem := s.mem, fb := s.fb }

/-- `loadProgram(bytes)` (R212): verbatim at 0x200, or refused whole when longer than 3584 bytes (R187). -/
def loadProgramOp (bytes : List Byte) (s : State) : State :=
  if bytes.length ≤ 3584 then { s with mem := s.mem.writeBytes s.cfg 0x200 bytes, out := .loaded }
  else { s with out := .imageTooLarge }

/-- One tick of a timer unit: decrement if nonzero (R173, R174). -/
def decay (b : Byte) : Byte := if b = 0 then 0 else b - 1

/-- `decayTimers()` (R174): legal in every mode. -/
def decayTimersOp (s : State) : State := { s with dt := decay s.dt, st := decay s.st, out := .silent }

/-- `keyDown(k)` (R168): consumed by a waiting machine, else discarded. -/
def keyDownOp (k : BitVec 4) (s : State) : State :=
  match s.mode with
  | .awaitKey => { s.setV s.kreg (k.setWidth 8) with mode := .running, out := .silent }
  | .running | .faulted => { s with out := .silent }

/-- The output `sound_active` (R176). -/
def State.soundActive (s : State) : Bool := decide (s.st ≠ 0)

end Sys2Proof.Machine
end

