-- ==== Sys2Proof/Machine/Cycle.lean ====
section
/-!
DEFINITION. The step cycle (R66), the no-op of an unknown opcode (R65), and performing the embedding's next operation
(R6, R217).
-/

namespace Sys2Proof.Machine

/-- `UNKNOWN(op)` of R65: `NextPC()` and a diagnostic; under the FAULT policy the overflow of `pc` is reported and no
diagnostic (R189). -/
def execUnknown (op : Word) (s : State) : Host.Outcome State Fault Refusal :=
  .next (s.settle (.diagnostic s.pc op) (nextPC s))

/-- Steps 3 to 6 of R66: fetch, decode, execute. -/
def runInstruction (s : State) : Host.Outcome State Fault Refusal :=
  match fetch s with
  | .error e => .next (s.raise e)
  | .ok op =>
    match decode op with
    | .ok i => exec i s
    | .error _ => execUnknown op s

/-- The operation `step(keys, rnd)` (R66). -/
def stepOp (s : State) : Host.Outcome State Fault Refusal :=
  match s.mode with
  | .faulted => .next { s with out := .stillFaulted s.fcause s.finfo }
  | .awaitKey => .next { s with out := .waiting }
  | .running => runInstruction s

/-- One operation of the embedding, its arguments still at the head of `pending` (R6). A `power_on` whose
configuration breaks R5's constraints is refused (log entry 11). -/
def perform (op : Operation) (s : State) : Host.Outcome State Fault Refusal :=
  match op with
  | .step _ _ => stepOp s
  | .powerOn cfg => if cfg.wf then .next (powerOnOp cfg s) else .refused .badConfiguration
  | .reset => .next (resetOp s)
  | .loadProgram bytes => .next (loadProgramOp bytes s)
  | .decayTimers => .next (decayTimersOp s)
  | .keyDown k => .next (keyDownOp k s)

/-- The operation just performed leaves the queue and is counted. -/
def State.endOp (s : State) : State := { s with pending := s.pending.tail, tick := s.tick + 1 }

/-- `State.endOp` after an operation that answers a next state. -/
def endOperation : Host.Outcome State Fault Refusal → Host.Outcome State Fault Refusal
  | .next s => .next s.endOp
  | .fault r => .fault r
  | .refused r => .refused r

/-- The embedding's next operation, whole: the oldest pending one, or, when none is pending, a `step` with free inputs
(R217; log entries 8 and 9). -/
def nextOperation (s : State) : Host.Outcome State Fault Refusal :=
  match s.pending with
  | [] => endOperation (stepOp s)
  | op :: _ => endOperation (perform op s)

/-- Whether the embedding's next operation is a `step`. -/
def State.stepsNext (s : State) : Bool :=
  match s.pending with
  | [] => true
  | .step _ _ :: _ => true
  | _ => false

/-- `s` with the two bytes of `op` placed where the next fetch reads them, in `RUNNING` mode and with no operation of
the embedding before that fetch (a pending `step` stays, with its inputs). `pc` stays unless no word can be fetched
there (0xFFF), when it becomes the program origin. Log entry 12. -/
def placeWord (op : Word) (s : State) : State :=
  let pc : Word := if s.pc.toNat + 1 ≤ 0xFFF then s.pc else 0x200
  { s with mode := .running, pending := if s.stepsNext then s.pending else [], pc := pc,
           mem := s.mem.writeBytes s.cfg pc.toNat (bytesOfWord op) }

end Sys2Proof.Machine
end

