-- ==== Sys2Proof/Machine/Step.lean ====
section
/-!
DEFINITION. One step of the model: one operation of the embedding, performed whole (R6, R66, R217); and placing an
instruction where the next step fetches it.
-/

namespace Sys2Proof.Machine

/-- The next operation of the embedding: an instruction step unless another operation is pending. -/
def step (s : State) : Host.Outcome State Fault Refusal := Sys2Proof.Machine.nextOperation s

/-- `s` with the table word `w` (bit 0 the least significant bit of the one 16-bit word) stored where `step` fetches
its next instruction, so that the next step runs it (log entry 12). -/
def State.withFetchWord (s : State) (nbits w : Nat) : State := Sys2Proof.Machine.placeWord (tableWord nbits w) s

end Sys2Proof.Machine
end

