-- ==== Sys2Proof/Safety.lean ====
section
/-!
DEFINITION. What claims about the machine are stated in: the legal states, a safe run (R183), where a written `pc`
lands (R17), and the spec's tables of what each instruction may write (R12) and when it faults (R181).
-/

namespace Sys2Proof.Machine

/-- A pixel array of `DISPLAY_H` rows of `DISPLAY_W` pixels (R28). -/
abbrev FrameBuffer.wf (cfg : Config) (fb : FrameBuffer) : Prop :=
  fb.length = cfg.displayH ∧ ∀ row ∈ fb, row.length = cfg.displayW

/-- `FCAUSE` and `FINFO` say why the machine is faulted (R24, R181); a machine that is not faulted has `NONE`, 0. -/
def State.faultRecordOk (s : State) : Prop :=
  match s.mode with
  | .running | .awaitKey => s.fcause = .none ∧ s.finfo = 0
  | .faulted =>
    match s.fcause with
    | .none => False
    | .memRangeFetch => s.finfo = s.pc ∧ s.pc = 0xFFF
    | .memRangeRead | .memRangeWrite => s.finfo = 0x1000
    | .stackOverflow => s.finfo = s.pc ∧ s.sp.val = 16
    | .stackUnderflow => s.finfo = s.pc ∧ s.sp.val = 0
    | .pcOverflow => s.cfg.pcOverflow = .fault ∧ 0x1000 ≤ s.finfo.toNat ∧ s.finfo.toNat ≤ 0x10FE

/-- The legal states: the "legal values" column of spec/10_state.md section 1, R5's constraints, the canonical form of
memory, and the meaning of the fault record. -/
structure State.Inv (s : State) : Prop where
  cfgWf       : s.cfg.wf
  iRange      : s.i.toNat ≤ 0xFFF
  pcRange     : s.pc.toNat ≤ 0xFFF
  stackRange  : ∀ w ∈ s.stack.toList, w.toNat ≤ 0x1000
  memWf       : Memory.wf s.cfg s.mem
  fbWf        : FrameBuffer.wf s.cfg s.fb
  faultRecord : s.faultRecordOk

/-- No fault has occurred (R183: "`MODE != FAULTED`" is the meaning of "no fault occurred"). -/
def State.Unfaulted (s : State) : Prop := s.mode ≠ .faulted

/-- A value may be written to `pc`: it is an address, or the policy wraps (R17). -/
def State.accepts (s : State) (v : Nat) : Prop := v ≤ 0xFFF ∨ s.cfg.pcOverflow = .wrapToOrigin

/-- Where an accepted value lands: the address itself, or the origin (R17). -/
def landing (v : Nat) : Nat := if v ≤ 0xFFF then v else 0x200

/-- The word that a fetch at `pc` would read (R44). -/
def State.nextWord (s : State) : Word := wordOfBytes (s.byteAt s.pc.toNat) (s.byteAt (s.pc.toNat + 1))

/-- The end of an instruction that does not set `pc` itself and completes: `NextPC()` and `Done` (R16, R66). -/
def State.advancedTo (s t : State) : Prop := t.pc.toNat = landing (s.pc.toNat + 2) ∧ t.out = .done

/-- The frame of a register-only instruction: nothing but the listed general registers, `pc` and the report differs. -/
def State.changedOnlyRegs (s t : State) (dests : List Reg) : Prop :=
  (∀ r, r ∉ dests → t.getV r = s.getV r) ∧ t = { s with v := t.v, pc := t.pc, out := t.out }

/-- How many 1 bits of a sprite drawn with its top left pixel at column `px`, row `py` land on `FB[r][c]`: bit `7 - j` of
row `k` lands on row `(py + k) mod H`, column `(px + j) mod W` (R142, R144). -/
def spriteHits (cfg : Config) (rows : List Byte) (px py r c : Nat) : Nat :=
  ((List.range rows.length).map fun k =>
    (List.range 8).countP fun j =>
      (rows.getD k 0).getLsbD (7 - j) && decide ((py + k) % cfg.displayH = r) &&
        decide ((px + j) % cfg.displayW = c)).sum

/-- The state less what no instruction reads: `ST` (R21), `KREG` (R23), `FCAUSE`, `FINFO` (R24) and the report. -/
def State.readable (s : State) : State :=
  { s with st := 0, kreg := 0, fcause := .none, finfo := 0, out := .silent }

/-- `pc` and every call-stack entry is even (R18). -/
def State.evenFlow (s : State) : Prop := s.pc.toNat % 2 = 0 ∧ ∀ w ∈ s.stack.toList, w.toNat % 2 = 0

/-- The conventional halt of R214: the word at `pc` is a 1nnn whose `nnn` is its own address. -/
def State.atSelfJump (s : State) : Prop :=
  s.pc.toNat + 1 ≤ 0xFFF ∧ ∃ nnn, decode s.nextWord = .ok (.jp nnn) ∧ nnn.toNat = s.pc.toNat

end Sys2Proof.Machine

namespace Sys2Proof

open Machine

/-- The "writes" column of R12: register `r` is a destination of the instruction. -/
def Instr.writesReg (i : Instr) (r : Reg) : Bool :=
  match i with
  | .ldByte x _ | .addByte x _ | .ldReg x _ | .orReg x _ | .andReg x _ | .xorReg x _ | .rnd x _ | .ldVxDT x => r = x
  | .addReg x _ | .sub x _ | .subn x _ | .shr x _ | .shl x _ => r = x || r = vf
  | .drw _ _ _ => r = vf
  | .ldRegs x => decide (r ≤ x)
  | .cls | .ret | .jp _ | .call _ | .seByte _ _ | .sneByte _ _ | .seReg _ _ | .sneReg _ _ | .ldI _ | .jpV0 _
  | .skp _ | .sknp _ | .ldVxK _ | .ldDTVx _ | .ldSTVx _ | .addI _ | .ldF _ | .ldB _ | .stRegs _ => false

/-- The instructions that write `I` (R13). -/
def Instr.writesI : Instr → Bool
  | .ldI _ | .addI _ | .ldF _ => true
  | _ => false

/-- The instructions that reach the call stack (R19). -/
def Instr.usesStack : Instr → Bool
  | .call _ | .ret => true
  | _ => false

/-- The instructions that write the pixel array (R28). -/
def Instr.writesFB : Instr → Bool
  | .cls | .drw _ _ _ => true
  | _ => false

/-- The bytes of memory that an instruction stores: the address of the first and their number (R56). -/
def Instr.storeWindow (i : Instr) (s : State) : Option (Nat × Nat) :=
  match i with
  | .ldB _ => some (s.i.toNat, 3)
  | .stRegs x => some (s.i.toNat, x.val + 1)
  | _ => none

/-- The value that an instruction without a fault of its own writes to `pc`, before the overflow policy (R16). -/
def Instr.target (i : Instr) (s : State) : Nat :=
  match i with
  | .jp nnn | .call nnn => nnn.toNat
  | .ret => s.stack[s.sp.val - 1].toNat
  | .jpV0 nnn => nnn.toNat + (s.getV 0).toNat
  | .seByte x kk => s.pc.toNat + (if s.getV x = kk then 4 else 2)
  | .sneByte x kk => s.pc.toNat + (if s.getV x = kk then 2 else 4)
  | .seReg x y => s.pc.toNat + (if s.getV x = s.getV y then 4 else 2)
  | .sneReg x y => s.pc.toNat + (if s.getV x = s.getV y then 2 else 4)
  | .skp x => s.pc.toNat + (if s.keys.getLsbD ((s.getV x).toNat % 16) then 4 else 2)
  | .sknp x => s.pc.toNat + (if s.keys.getLsbD ((s.getV x).toNat % 16) then 2 else 4)
  | _ => s.pc.toNat + 2

/-- The fault of an instruction's own operation, before its `pc` write (R181, R189). -/
def Instr.ownFault (i : Instr) (s : State) : Option Trap :=
  match i with
  | .call _ => if s.sp.val = 16 then some ⟨.stackOverflow, s.pc⟩ else none
  | .ret => if s.sp.val = 0 then some ⟨.stackUnderflow, s.pc⟩ else none
  | .drw _ _ n => if 1 ≤ n ∧ 0xFFF < s.i.toNat + n - 1 then some ⟨.memRangeRead, 0x1000⟩ else none
  | .ldRegs x => if 0xFFF < s.i.toNat + x.val then some ⟨.memRangeRead, 0x1000⟩ else none
  | .stRegs x => if 0xFFF < s.i.toNat + x.val then some ⟨.memRangeWrite, 0x1000⟩ else none
  | .ldB _ => if 0xFFF < s.i.toNat + 2 then some ⟨.memRangeWrite, 0x1000⟩ else none
  | _ => none

/-- The fault that an instruction raises, if any (R181, in the order of R189). -/
def Instr.faults (i : Instr) (s : State) : Option Trap :=
  match i.ownFault s with
  | some t => some t
  | none =>
    if 0xFFF < i.target s ∧ s.cfg.pcOverflow = .fault then some ⟨.pcOverflow, BitVec.ofNat 16 (i.target s)⟩ else none

/-- `i` is a 1nnn, 2nnn or Bnnn whose target is odd (R18). -/
def Instr.oddTarget (i : Instr) (s : State) : Bool :=
  match i with
  | .jp nnn | .call nnn => decide (nnn.toNat % 2 = 1)
  | .jpV0 nnn => decide ((nnn.toNat + (s.getV 0).toNat) % 2 = 1)
  | _ => false

/-- The mode after the next operation, by the transition table of R196. -/
def Machine.State.modeAfter (s : State) : Mode :=
  match s.pending with
  | .powerOn _ :: _ | .reset :: _ => .running
  | .keyDown _ :: _ => if s.mode = .awaitKey then .running else s.mode
  | .loadProgram _ :: _ | .decayTimers :: _ => s.mode
  | [] | .step _ _ :: _ =>
    if s.mode ≠ .running then s.mode
    else if 0xFFF < s.pc.toNat + 1 then .faulted
    else
      match decode s.nextWord with
      | .error _ =>
        if 0xFFF < s.pc.toNat + 2 ∧ s.cfg.pcOverflow = OverflowPolicy.fault then .faulted else .running
      | .ok i =>
        if (i.faults s).isSome then .faulted
        else match i with
          | .ldVxK _ => .awaitKey
          | _ => .running

end Sys2Proof
end

