-- ==== Sys2Proof/Certificates/Slice0/Obligations.lean ====
section
/-!
DEFINITION. The statements for the provers. `log entry n` is notes/assumptions/n.md; `D<n>` is a decision of
spec/92_eei_decisions.md, a choice of the spec and no sentence of its source.
-/

open Sys2Proof Sys2Proof.Machine

/-! ### Encoding -/

/-- R61 to R63: decoding the encoding of a well-formed instruction gives it back, with every operand at every value. -/
def Obligations.EncodeThenDecodeIsIdentity : Prop :=
  ∀ i : Instr, i.WellFormed → decode (encode i) = .ok i

/-- R63, R64: a word that decodes is the encoding of what it decodes to, which is well-formed; so no two words and no
two rows share an instruction. -/
def Obligations.DecodedWordIsItsEncoding : Prop :=
  ∀ (op : Word) (i : Instr), decode op = .ok i → i.WellFormed ∧ encode i = op

/-- R65 (D17, log entry 13): the unknown words are exactly those of its list, class by class. -/
def Obligations.UnknownWordsAreExactlyTheListed : Prop :=
  ∀ op : Word,
    (decode op = .error .family0 ↔ op.toNat / 0x1000 = 0x0 ∧ op.toNat ≠ 0x00E0 ∧ op.toNat ≠ 0x00EE) ∧
    (decode op = .error .family5 ↔ op.toNat / 0x1000 = 0x5 ∧ op.toNat % 0x10 ≠ 0) ∧
    (decode op = .error .family8 ↔
      op.toNat / 0x1000 = 0x8 ∧ op.toNat % 0x10 ∈ [0x8, 0x9, 0xA, 0xB, 0xC, 0xD, 0xF]) ∧
    (decode op = .error .family9 ↔ op.toNat / 0x1000 = 0x9 ∧ op.toNat % 0x10 ≠ 0) ∧
    (decode op = .error .familyE ↔ op.toNat / 0x1000 = 0xE ∧ op.toNat % 0x100 ∉ [0x9E, 0xA1]) ∧
    (decode op = .error .familyF ↔
      op.toNat / 0x1000 = 0xF ∧ op.toNat % 0x100 ∉ [0x07, 0x0A, 0x15, 0x18, 0x1E, 0x29, 0x33, 0x55, 0x65])

/-- Words written out from R63 (three of them are the document's own, S10) decode to the instructions they stand for. -/
def Obligations.SampleWordsDecode : Prop :=
  decode 0x6005 = .ok (.ldByte 0 5) ∧ decode 0x6102 = .ok (.ldByte 1 2) ∧ decode 0x8014 = .ok (.addReg 0 1) ∧
  decode 0x00EE = .ok .ret ∧ decode 0x220E = .ok (.call 0x20E) ∧ decode 0xD012 = .ok (.drw 0 1 2) ∧
  decode 0xF255 = .ok (.stRegs 2) ∧ decode 0xE19E = .ok (.skp 1)

/-! ### The step -/

/-- R66: when the embedding's next operation is a step, the machine runs and a word can be fetched, the step is `exec`
of the decoded instruction, after which the operation leaves the queue. -/
def Obligations.StepExecutesTheDecodedInstruction : Prop :=
  ∀ (s : State) (i : Instr), s.stepsNext = true → s.mode = .running → s.pc.toNat + 1 ≤ 0xFFF →
    decode s.nextWord = .ok i → i.WellFormed → step s = endOperation (exec i s)

/-- R65, R188 (D16, D17): an unknown opcode changes nothing but `pc`, which advances by 2 through the overflow policy,
and is reported with its address and word; when `pc` cannot advance (policy FAULT) it faults without a diagnostic (R189). -/
def Obligations.UnknownOpcodeIsAReportedNoOp : Prop :=
  ∀ (s : State) (u : Unknown), s.stepsNext = true → s.mode = .running → s.pc.toNat + 1 ≤ 0xFFF →
    decode s.nextWord = .error u →
    (s.accepts (s.pc.toNat + 2) → step s = .next
      { s with pc := BitVec.ofNat 16 (landing (s.pc.toNat + 2)), out := .diagnostic s.pc s.nextWord }.endOp) ∧
    (¬ s.accepts (s.pc.toNat + 2) → step s = .next (s.raise ⟨.pcOverflow, s.pc + 2⟩).endOp)

/-- R44 (D11, log entry 18): with `pc` at the last byte of memory the fetch faults, under both policies. -/
def Obligations.FetchAtTheTopFaults : Prop :=
  ∀ s : State, s.stepsNext = true → s.mode = .running → s.pc = 0xFFF →
    step s = .next (s.raise ⟨.memRangeFetch, 0xFFF⟩).endOp

/-- R66: a step changes nothing in `AWAIT_KEY` and returns `Waiting` (R164), and changes nothing in `FAULTED` and returns
`StillFaulted` with the fault record (R183). The queue and the report are the model's (log entries 8, 10). -/
def Obligations.StepOutsideRunningChangesNothing : Prop :=
  ∀ s : State, s.stepsNext = true →
    (s.mode = .awaitKey → step s = .next { s with out := .waiting }.endOp) ∧
    (s.mode = .faulted → step s = .next { s with out := .stillFaulted s.fcause s.finfo }.endOp)

/-- A word placed by `withFetchWord` is the one the next step runs (R44, R66; log entry 12). -/
def Obligations.PlacedWordIsRunNext : Prop :=
  ∀ (s : State) (op : Word) (i : Instr), decode op = .ok i →
    step (s.withFetchWord 16 op.toNat) = endOperation (exec i (s.withFetchWord 16 op.toNat))

/-- Every operation returns (R66: a step "returns without blocking" in every case): the model stops only on a `power_on`
whose configuration breaks R5's constraints (the model's choice, log entry 11). -/
def Obligations.EveryOperationReturns : Prop :=
  ∀ s : State, (∃ t, step s = .next t) ∨
    (∃ cfg rest, s.pending = .powerOn cfg :: rest ∧ ¬ cfg.wf ∧ step s = .refused .badConfiguration)

/-! ### Invariants and whole-machine rules -/

/-- R210: the machine is in a legal state after `power_on` with any configuration that meets R5, the default one among
them, hence in `State.reset`. -/
def Obligations.PowerOnStateIsLegal : Prop :=
  (∀ cfg : Config, cfg.wf → (State.powerOn cfg).Inv) ∧ State.reset.Inv

/-- Every operation, from every legal state, leaves a legal state: `I`, `pc` and the call-stack entries in their ranges
(R14, R17, R19), memory canonical (log entry 4), the pixel array in shape (R28), the fault record true (R24, R181). -/
def Obligations.EveryStepKeepsTheStateLegal : Prop :=
  ∀ s t : State, s.Inv → step s = .next t → t.Inv

/-- R196 (D14, D25): the mode after every operation is that of the transition table. -/
def Obligations.ModeFollowsTheTransitionTable : Prop :=
  ∀ s t : State, step s = .next t → t.mode = s.modeAfter

/-- R182, R48 (D14): an operation that takes the machine from another mode to `FAULTED` changes nothing but `MODE`,
`FCAUSE`, `FINFO` and the report, and reports the recorded fault. -/
def Obligations.FaultLeavesNoPartialEffect : Prop :=
  ∀ s t : State, s.mode ≠ .faulted → step s = .next t → t.mode = .faulted →
    t = { s with mode := .faulted, fcause := t.fcause, finfo := t.finfo, out := .fault t.fcause t.finfo }.endOp

/-- R183, R193 (D14): in `FAULTED`, whatever the embedding does but `reset()` and `power_on()`, the mode, the fault record
and everything a program computes with stay; only the timers, `Mem` from 0x200 up and the report may change. -/
def Obligations.FaultedIsLeftOnlyByResetOrPowerOn : Prop :=
  ∀ s t : State, s.mode = .faulted → step s = .next t →
    (∃ rest, s.pending = .reset :: rest) ∨ (∃ cfg rest, s.pending = .powerOn cfg :: rest) ∨
    (t = { s with dt := t.dt, st := t.st, mem := t.mem, out := t.out }.endOp ∧
      ∀ a, a < 0x200 → t.byteAt a = s.byteAt a)

/-- R29: `cfg` is fixed at `power_on`: no other operation changes it. -/
def Obligations.ConfigurationIsFixedAtPowerOn : Prop :=
  ∀ s t : State, step s = .next t → t.cfg = s.cfg ∨ ∃ rest, s.pending = .powerOn t.cfg :: rest

/-- R12, R30: a completed or faulted instruction leaves every general register unchanged that the table does not list as
written by it; `VF` among them (D21). -/
def Obligations.OnlyListedRegistersAreWritten : Prop :=
  ∀ (i : Instr) (s t : State) (r : Reg), exec i s = .next t → i.writesReg r = false → t.getV r = s.getV r

/-- R47, R56: an instruction leaves every byte of memory unchanged outside the bytes it stores, whose address is the `I`
of the state at entry; only Fx33 and Fx55 store. -/
def Obligations.OnlyTheStoredBytesChange : Prop :=
  ∀ (i : Instr) (s t : State) (a : Nat), exec i s = .next t →
    (∀ base n, i.storeWindow s = some (base, n) → a < base ∨ base + n ≤ a) → t.byteAt a = s.byteAt a

/-- Who writes what else, for every instruction: `I` only by Annn, Fx1E, Fx29 (R13, D22), the call stack only by 2nnn and
00EE (R19), `FB` only by 00E0 and Dxyn (R28), `DT` only by Fx15, `ST` only by Fx18 (R21), `KREG` only by Fx0A (R23), the
fault record only by a fault (R24); `cfg` and the queue by none. -/
def Obligations.OnlyTheNamedInstructionsWriteEachRegister : Prop :=
  ∀ (i : Instr) (s t : State), exec i s = .next t →
    (i.writesI = false → t.i = s.i) ∧
    (i.usesStack = false → t.stack = s.stack ∧ t.sp = s.sp) ∧
    (i.writesFB = false → t.fb = s.fb) ∧
    ((∀ x, i ≠ .ldDTVx x) → t.dt = s.dt) ∧
    ((∀ x, i ≠ .ldSTVx x) → t.st = s.st) ∧
    ((∀ x, i ≠ .ldVxK x) → t.kreg = s.kreg) ∧
    (i.faults s = none → t.fcause = s.fcause ∧ t.finfo = s.finfo) ∧
    t.cfg = s.cfg ∧ t.pending = s.pending ∧ t.tick = s.tick

/-- R181, R189, R16, R17 (D10, D13 to D15): from a legal state an instruction faults exactly when the table says, with
that cause and information word and no other effect; otherwise it completes, with `pc` where R16 puts it. -/
def Obligations.InstructionFaultsExactlyAsListed : Prop :=
  ∀ (i : Instr) (s : State), s.Inv →
    (∀ e, i.faults s = some e → exec i s = .next (s.raise e)) ∧
    (i.faults s = none → ∃ t, exec i s = .next t ∧ t.out = .done ∧ t.pc.toNat = landing (i.target s))

/-- R21, R23, R24: no instruction reads `ST`, `KREG`, the fault record (or the model's report): two states that differ
only there go to states that differ only there. -/
def Obligations.WriteOnlyStateIsNeverRead : Prop :=
  ∀ (i : Instr) (s u t : State), s.readable = u.readable → exec i s = .next t →
    ∃ w, exec i u = .next w ∧ w.readable = t.readable

/-- R66: `keys` and `rnd` are read only by Ex9E, ExA1 and Cxkk: any other instruction has the same effect whatever the
inputs of the step. -/
def Obligations.OnlyThreeInstructionsReadTheInputs : Prop :=
  ∀ (i : Instr) (s t : State) (ops : List Operation) (k : Nat),
    (∀ x, i ≠ .skp x) → (∀ x, i ≠ .sknp x) → (∀ x kk, i ≠ .rnd x kk) → exec i s = .next t →
    exec i { s with pending := ops, tick := k } = .next { t with pending := ops, tick := k }

/-- R18: with `pc` and the call stack even, a step keeps them even unless it executes a 1nnn, 2nnn or Bnnn with an odd
target; the other operations keep them even too. -/
def Obligations.EvenPcStaysEven : Prop :=
  ∀ s t : State, s.Inv → s.evenFlow → step s = .next t →
    (∀ i, s.stepsNext = true → s.mode = .running → decode s.nextWord = .ok i → i.oddTarget s = false) → t.evenFlow

/-! ### Control transfer -/

/-- R17, R9 (D10): `SetPC(v)` writes an address as it is; beyond 0xFFF it writes 0x200 under `WRAP_TO_ORIGIN` and raises
`PC_OVERFLOW` with `v` under `FAULT`; it changes nothing else. `NextPC()` is `SetPC(pc + 2)`, `Skip()` is `SetPC(pc + 4)`. -/
def Obligations.PcWritesFollowTheOverflowPolicy : Prop :=
  ∀ (s : State) (v : Nat),
    (v ≤ 0xFFF → ∃ p, setPC v s = .ok p ∧ p.pc.toNat = v ∧ p = { s with pc := p.pc }) ∧
    (0xFFF < v → s.cfg.pcOverflow = .wrapToOrigin → setPC v s = .ok { s with pc := 0x200 }) ∧
    (0xFFF < v → s.cfg.pcOverflow = .fault → setPC v s = .error ⟨.pcOverflow, BitVec.ofNat 16 v⟩) ∧
    nextPC s = setPC (s.pc.toNat + 2) s ∧ skip s = setPC (s.pc.toNat + 4) s

/-- R81: `pc` is `nnn` afterwards and nothing else changes; the instruction never faults. -/
def Obligations.JumpSetsPc : Prop :=
  ∀ (s : State) (nnn : BitVec 12),
    ∃ t, exec (.jp nnn) s = .next t ∧ t.pc.toNat = nnn.toNat ∧ t = { s with pc := t.pc, out := t.out }

/-- R82, R19, R20: CALL below depth 16 stores `pc + 2` in `S[SP]`, raises `SP` by one and jumps; every other entry and the
rest of the state stay; at depth 16 it faults with its own `pc` and nothing else changes (R185). The pushed value is
DEDUCED by the spec; codes and information word are D14. -/
def Obligations.CallPushesTheReturnAddress : Prop :=
  ∀ (s : State) (nnn : BitVec 12),
    (s.sp.val < 16 → ∃ t, exec (.call nnn) s = .next t ∧ t.pc.toNat = nnn.toNat ∧ t.sp.val = s.sp.val + 1 ∧
      (∀ k : Fin 16, t.stack[k.val] = if k.val = s.sp.val then s.pc + 2 else s.stack[k.val]) ∧
      t = { s with pc := t.pc, sp := t.sp, stack := t.stack, out := .done }) ∧
    (s.sp.val = 16 → exec (.call nnn) s = .next (s.raise ⟨.stackOverflow, s.pc⟩))

/-- R80, R20: RET above depth 0 lowers `SP` by one and sets `pc` to the popped entry through the overflow policy (D10);
the entry keeps its value (D9); at depth 0 it faults with its own `pc` and nothing else changes (R185, D14). -/
def Obligations.ReturnPopsThePc : Prop :=
  ∀ s : State,
    (∀ (k : Fin 16), s.sp.val = k.val + 1 → s.accepts s.stack[k.val].toNat →
      ∃ t, exec .ret s = .next t ∧ t.pc.toNat = landing s.stack[k.val].toNat ∧ t.sp.val = k.val ∧
        t = { s with pc := t.pc, sp := t.sp, out := .done }) ∧
    (s.sp.val = 0 → exec .ret s = .next (s.raise ⟨.stackUnderflow, s.pc⟩))

/-- R87 (D10): the unreduced sum `nnn + V[0]` becomes `pc` through the overflow policy. -/
def Obligations.JumpV0AddsRegisterZero : Prop :=
  ∀ (s : State) (nnn : BitVec 12),
    (s.accepts (nnn.toNat + (s.getV 0).toNat) →
      ∃ t, exec (.jpV0 nnn) s = .next t ∧ t.pc.toNat = landing (nnn.toNat + (s.getV 0).toNat) ∧
        t = { s with pc := t.pc, out := .done }) ∧
    (¬ s.accepts (nnn.toNat + (s.getV 0).toNat) →
      exec (.jpV0 nnn) s = .next (s.raise ⟨.pcOverflow, BitVec.ofNat 16 (nnn.toNat + (s.getV 0).toNat)⟩))

/-- R83 to R86: each of the four skips ends with `SetPC(pc + 4)` (`Skip()`) when its condition holds and with
`SetPC(pc + 2)` (`NextPC()`) when it does not; when that raises, the skip raises it; nothing else changes. What `SetPC` does
is `PcWritesFollowTheOverflowPolicy`. -/
def Obligations.SkipsCompareAndSkip : Prop :=
  ∀ (s : State) (x y : Reg) (kk : Byte),
    (∀ p, setPC (s.pc.toNat + (if s.getV x = kk then 4 else 2)) s = .ok p →
      ∃ t, exec (.seByte x kk) s = .next t ∧ t.pc = p.pc ∧ t = { s with pc := t.pc, out := t.out }) ∧
    (∀ e, setPC (s.pc.toNat + (if s.getV x = kk then 4 else 2)) s = .error e →
      exec (.seByte x kk) s = .next (s.raise e)) ∧
    (∀ p, setPC (s.pc.toNat + (if s.getV x ≠ kk then 4 else 2)) s = .ok p →
      ∃ t, exec (.sneByte x kk) s = .next t ∧ t.pc = p.pc ∧ t = { s with pc := t.pc, out := t.out }) ∧
    (∀ e, setPC (s.pc.toNat + (if s.getV x ≠ kk then 4 else 2)) s = .error e →
      exec (.sneByte x kk) s = .next (s.raise e)) ∧
    (∀ p, setPC (s.pc.toNat + (if s.getV x = s.getV y then 4 else 2)) s = .ok p →
      ∃ t, exec (.seReg x y) s = .next t ∧ t.pc = p.pc ∧ t = { s with pc := t.pc, out := t.out }) ∧
    (∀ e, setPC (s.pc.toNat + (if s.getV x = s.getV y then 4 else 2)) s = .error e →
      exec (.seReg x y) s = .next (s.raise e)) ∧
    (∀ p, setPC (s.pc.toNat + (if s.getV x ≠ s.getV y then 4 else 2)) s = .ok p →
      ∃ t, exec (.sneReg x y) s = .next t ∧ t.pc = p.pc ∧ t = { s with pc := t.pc, out := t.out }) ∧
    (∀ e, setPC (s.pc.toNat + (if s.getV x ≠ s.getV y then 4 else 2)) s = .error e →
      exec (.sneReg x y) s = .next (s.raise e))

/-- R161, R162 (D24: the low nibble of `V[x]` names the key; D26: the levels are those of this step): the key skips, with
`pc` through the overflow policy. -/
def Obligations.KeySkipsTestTheNamedKey : Prop :=
  ∀ (s : State) (x : Reg) (keys : BitVec 16) (rnd : Byte) (rest : List Operation),
    s.pending = .step keys rnd :: rest → s.accepts (s.pc.toNat + 4) →
    (∃ t, exec (.skp x) s = .next t ∧
      t.pc.toNat = landing (s.pc.toNat + (if keys.getLsbD ((s.getV x).toNat % 16) then 4 else 2)) ∧
      t = { s with pc := t.pc, out := .done }) ∧
    (∃ t, exec (.sknp x) s = .next t ∧
      t.pc.toNat = landing (s.pc.toNat + (if keys.getLsbD ((s.getV x).toNat % 16) then 2 else 4)) ∧
      t = { s with pc := t.pc, out := .done })

/-- R90: a CALL followed at its target by a RET leaves `pc` after the CALL, `SP` as it was and every register, timer,
pixel and memory byte unchanged. -/
def Obligations.CallThenReturnRestoresPc : Prop :=
  ∀ (s : State) (nnn : BitVec 12), s.pending = [] → s.mode = .running → s.sp.val < 16 → s.pc.toNat ≤ 0xFFC →
    decode s.nextWord = .ok (.call nnn) → nnn.toNat + 1 ≤ 0xFFF →
    decode (wordOfBytes (s.byteAt nnn.toNat) (s.byteAt (nnn.toNat + 1))) = .ok .ret →
    ∃ t u, step s = .next t ∧ step t = .next u ∧ u.pc = s.pc + 2 ∧
      u = { s with pc := u.pc, stack := u.stack, out := .done, tick := s.tick + 2 }

/-- R214: a 1nnn at its own address leaves the state as it is (the operation is counted). -/
def Obligations.SelfJumpStaysPut : Prop :=
  ∀ s : State, s.stepsNext = true → s.mode = .running → s.atSelfJump →
    step s = .next { s with out := .done }.endOp

/-! ### Loads, arithmetic, the random byte -/

/-- R100: `V[x] <- kk; NextPC()`, and nothing else changes; when `NextPC()` raises, the instruction raises that and has no
other effect. -/
def Obligations.LoadByteSetsTheRegister : Prop :=
  ∀ (s : State) (x : Reg) (kk : Byte),
    (∀ p, nextPC s = .ok p →
      ∃ t, exec (.ldByte x kk) s = .next t ∧ t.getV x = kk ∧ t.pc = p.pc ∧ s.changedOnlyRegs t [x]) ∧
    (∀ e, nextPC s = .error e → exec (.ldByte x kk) s = .next (s.raise e))

/-- R102: `V[x] <- V[y]; NextPC()`, and nothing else changes; when `NextPC()` raises, the instruction raises that and has no
other effect. -/
def Obligations.LoadRegisterCopies : Prop :=
  ∀ (s : State) (x y : Reg),
    (∀ p, nextPC s = .ok p →
      ∃ t, exec (.ldReg x y) s = .next t ∧ t.getV x = s.getV y ∧ t.pc = p.pc ∧ s.changedOnlyRegs t [x]) ∧
    (∀ e, nextPC s = .error e → exec (.ldReg x y) s = .next (s.raise e))

/-- R101, R103 to R105 (D21: no flag is written): the immediate addition is modulo 256 and the three logical operations act
on every bit; nothing but `V[x]` and `pc` changes, `VF` included when `x` is not 15. -/
def Obligations.UnflaggedArithmeticWritesOnlyVx : Prop :=
  ∀ (s : State) (x y : Reg) (kk : Byte), s.accepts (s.pc.toNat + 2) →
    (∃ t, exec (.addByte x kk) s = .next t ∧ (t.getV x).toNat = ((s.getV x).toNat + kk.toNat) % 256 ∧
      s.advancedTo t ∧ s.changedOnlyRegs t [x]) ∧
    (∃ t, exec (.orReg x y) s = .next t ∧
      (∀ j, (t.getV x).getLsbD j = ((s.getV x).getLsbD j || (s.getV y).getLsbD j)) ∧
      s.advancedTo t ∧ s.changedOnlyRegs t [x]) ∧
    (∃ t, exec (.andReg x y) s = .next t ∧
      (∀ j, (t.getV x).getLsbD j = ((s.getV x).getLsbD j && (s.getV y).getLsbD j)) ∧
      s.advancedTo t ∧ s.changedOnlyRegs t [x]) ∧
    (∃ t, exec (.xorReg x y) s = .next t ∧
      (∀ j, (t.getV x).getLsbD j = ((s.getV x).getLsbD j ^^ (s.getV y).getLsbD j)) ∧
      s.advancedTo t ∧ s.changedOnlyRegs t [x])

/-- R106 for `x` other than 15: the sum modulo 256 in `V[x]`, the carry in `VF`, operands read first (`y = 15` included).
The case `x = 15` is `FlagIsWrittenLast`. -/
def Obligations.AddSetsSumAndCarry : Prop :=
  ∀ (s : State) (x y : Reg), x ≠ vf → s.accepts (s.pc.toNat + 2) →
    ∃ t, exec (.addReg x y) s = .next t ∧
      (t.getV x).toNat = ((s.getV x).toNat + (s.getV y).toNat) % 256 ∧
      (t.getV vf).toNat = (if (s.getV x).toNat + (s.getV y).toNat > 255 then 1 else 0) ∧
      s.advancedTo t ∧ s.changedOnlyRegs t [x, vf]

/-- R107, R108, R110 for `x` other than 15 (D20: the flag is 1 at equality): the difference modulo 256 in `V[x]`, not
borrow in `VF`. -/
def Obligations.SubtractionsSetDifferenceAndNotBorrow : Prop :=
  ∀ (s : State) (x y : Reg), x ≠ vf → s.accepts (s.pc.toNat + 2) →
    (∃ t, exec (.sub x y) s = .next t ∧
      (t.getV x).toNat = ((s.getV x).toNat + 256 - (s.getV y).toNat) % 256 ∧
      (t.getV vf).toNat = (if (s.getV x).toNat ≥ (s.getV y).toNat then 1 else 0) ∧
      s.advancedTo t ∧ s.changedOnlyRegs t [x, vf]) ∧
    (∃ t, exec (.subn x y) s = .next t ∧
      (t.getV x).toNat = ((s.getV y).toNat + 256 - (s.getV x).toNat) % 256 ∧
      (t.getV vf).toNat = (if (s.getV y).toNat ≥ (s.getV x).toNat then 1 else 0) ∧
      s.advancedTo t ∧ s.changedOnlyRegs t [x, vf])

/-- R109, R111 for `x` other than 15 (D18: `cfg.SHIFT_SOURCE` names the operand): the operand shifted by one in `V[x]`, the
bit shifted out in `VF`. -/
def Obligations.ShiftsSetResultAndShiftedOutBit : Prop :=
  ∀ (s : State) (x y : Reg) (a : Byte), x ≠ vf → s.accepts (s.pc.toNat + 2) →
    a = (if s.cfg.shiftSource = .vx then s.getV x else s.getV y) →
    (∃ t, exec (.shr x y) s = .next t ∧ (t.getV x).toNat = a.toNat / 2 ∧ (t.getV vf).toNat = a.toNat % 2 ∧
      s.advancedTo t ∧ s.changedOnlyRegs t [x, vf]) ∧
    (∃ t, exec (.shl x y) s = .next t ∧ (t.getV x).toNat = a.toNat * 2 % 256 ∧ (t.getV vf).toNat = a.toNat / 128 ∧
      s.advancedTo t ∧ s.changedOnlyRegs t [x, vf])

/-- R113 (D19, log entry 15: a choice of the spec): when `x = 15` the result is overwritten and `VF` ends as the flag, in
all five flag-writing instructions; no other register changes. -/
def Obligations.FlagIsWrittenLast : Prop :=
  ∀ (s : State) (y : Reg) (a : Byte), s.accepts (s.pc.toNat + 2) →
    a = (if s.cfg.shiftSource = .vx then s.getV vf else s.getV y) →
    (∃ t, exec (.addReg vf y) s = .next t ∧
      (t.getV vf).toNat = (if (s.getV vf).toNat + (s.getV y).toNat > 255 then 1 else 0) ∧
      s.advancedTo t ∧ s.changedOnlyRegs t [vf]) ∧
    (∃ t, exec (.sub vf y) s = .next t ∧
      (t.getV vf).toNat = (if (s.getV vf).toNat ≥ (s.getV y).toNat then 1 else 0) ∧
      s.advancedTo t ∧ s.changedOnlyRegs t [vf]) ∧
    (∃ t, exec (.subn vf y) s = .next t ∧
      (t.getV vf).toNat = (if (s.getV y).toNat ≥ (s.getV vf).toNat then 1 else 0) ∧
      s.advancedTo t ∧ s.changedOnlyRegs t [vf]) ∧
    (∃ t, exec (.shr vf y) s = .next t ∧ (t.getV vf).toNat = a.toNat % 2 ∧
      s.advancedTo t ∧ s.changedOnlyRegs t [vf]) ∧
    (∃ t, exec (.shl vf y) s = .next t ∧ (t.getV vf).toNat = a.toNat / 128 ∧
      s.advancedTo t ∧ s.changedOnlyRegs t [vf])

/-- R112 (D27): `V[x]` gets the random byte of this step AND `kk`, whatever that byte is; so a 0 bit of `kk` gives a 0. -/
def Obligations.RandomByteIsMasked : Prop :=
  ∀ (s : State) (x : Reg) (kk : Byte), s.accepts (s.pc.toNat + 2) →
    ∃ t, exec (.rnd x kk) s = .next t ∧
      (∀ keys r rest, s.pending = .step keys r :: rest → t.getV x = r &&& kk) ∧
      (∀ j, kk.getLsbD j = false → (t.getV x).getLsbD j = false) ∧
      s.advancedTo t ∧ s.changedOnlyRegs t [x]

/-! ### The address register and memory -/

/-- R120: `I <- zext_16(nnn); NextPC()`, and nothing else changes; when `NextPC()` raises, the instruction raises that and
has no other effect. -/
def Obligations.LoadIndexSetsI : Prop :=
  ∀ (s : State) (nnn : BitVec 12),
    (∀ p, nextPC s = .ok p →
      ∃ t, exec (.ldI nnn) s = .next t ∧ t.i.toNat = nnn.toNat ∧ t.pc = p.pc ∧
        t = { s with i := t.i, pc := t.pc, out := t.out }) ∧
    (∀ e, nextPC s = .error e → exec (.ldI nnn) s = .next (s.raise e))

/-- R121 (D21: no flag) and R122 (D3, D23: base, stride and low nibble): `I` gets the masked sum, or the masked address
of the glyph; nothing else changes. -/
def Obligations.IndexArithmeticIsMasked : Prop :=
  ∀ (s : State) (x : Reg), s.accepts (s.pc.toNat + 2) →
    (∃ t, exec (.addI x) s = .next t ∧ t.i.toNat = (s.i.toNat + (s.getV x).toNat) % 4096 ∧ s.advancedTo t ∧
      t = { s with i := t.i, pc := t.pc, out := .done }) ∧
    (∃ t, exec (.ldF x) s = .next t ∧
      t.i.toNat = (s.cfg.fontBase + s.cfg.fontStride * ((s.getV x).toNat % 16)) % 4096 ∧ s.advancedTo t ∧
      t = { s with i := t.i, pc := t.pc, out := .done })

/-- R123 with the three bytes in range: the three decimal digits are stored at `I`, `I+1`, `I+2` and no other byte changes,
nor anything else. With `I + 2` beyond 0xFFF: `InstructionFaultsExactlyAsListed` (D13). -/
def Obligations.DecimalStoreWritesThreeDigits : Prop :=
  ∀ (s : State) (x : Reg), s.i.toNat + 2 ≤ 0xFFF → s.accepts (s.pc.toNat + 2) →
    ∃ t, exec (.ldB x) s = .next t ∧
      (t.byteAt s.i.toNat).toNat = (s.getV x).toNat / 100 ∧
      (t.byteAt (s.i.toNat + 1)).toNat = (s.getV x).toNat / 10 % 10 ∧
      (t.byteAt (s.i.toNat + 2)).toNat = (s.getV x).toNat % 10 ∧
      (∀ a, a < s.i.toNat ∨ s.i.toNat + 3 ≤ a → t.byteAt a = s.byteAt a) ∧
      s.advancedTo t ∧ t = { s with mem := t.mem, pc := t.pc, out := .done }

/-- R124 (D22: `I` unchanged): `V[0]`..`V[x]` are stored at `I`..`I+x` and no other byte changes. -/
def Obligations.BlockStoreWritesV0ToVx : Prop :=
  ∀ (s : State) (x : Reg), s.i.toNat + x.val ≤ 0xFFF → s.accepts (s.pc.toNat + 2) →
    ∃ t, exec (.stRegs x) s = .next t ∧
      (∀ r : Reg, r ≤ x → t.byteAt (s.i.toNat + r.val) = s.getV r) ∧
      (∀ a, a < s.i.toNat ∨ s.i.toNat + x.val + 1 ≤ a → t.byteAt a = s.byteAt a) ∧
      s.advancedTo t ∧ t = { s with mem := t.mem, pc := t.pc, out := .done }

/-- R125 (D22: `I` unchanged): the bytes at `I`..`I+x` are loaded into `V[0]`..`V[x]`; higher registers and memory stay. -/
def Obligations.BlockLoadReadsV0ToVx : Prop :=
  ∀ (s : State) (x : Reg), s.i.toNat + x.val ≤ 0xFFF → s.accepts (s.pc.toNat + 2) →
    ∃ t, exec (.ldRegs x) s = .next t ∧
      (∀ r : Reg, t.getV r = if r ≤ x then s.byteAt (s.i.toNat + r.val) else s.getV r) ∧
      s.advancedTo t ∧ t = { s with v := t.v, pc := t.pc, out := .done }

/-- R127: what Fx55 stored Fx65 loads back, through anything between them that leaves `I` and the stored bytes alone. -/
def Obligations.BlockStoreThenLoadRoundTrips : Prop :=
  ∀ (s : State) (x : Reg), s.i.toNat + x.val ≤ 0xFFF → s.accepts (s.pc.toNat + 2) →
    ∃ t, exec (.stRegs x) s = .next t ∧
      ∀ u : State, u.i = t.i → (∀ k, k ≤ x.val → u.byteAt (t.i.toNat + k) = t.byteAt (t.i.toNat + k)) →
        u.accepts (u.pc.toNat + 2) →
        ∃ w, exec (.ldRegs x) u = .next w ∧ ∀ r : Reg, r ≤ x → w.getV r = s.getV r

/-- R54, R45, R44: two bytes stored by Fx55 are, for the very next fetch at their address, the instruction word with the
byte at the lower address as its high byte. -/
def Obligations.StoredBytesAreFetchedBigEndian : Prop :=
  ∀ (s : State) (x k k' : Reg), s.i.toNat + x.val ≤ 0xFFF → s.accepts (s.pc.toNat + 2) → k'.val = k.val + 1 → k' ≤ x →
    ∃ t, exec (.stRegs x) s = .next t ∧
      ∀ u : State, u.cfg = t.cfg → u.mem = t.mem → u.pc.toNat = s.i.toNat + k.val →
        ∃ op, fetch u = .ok op ∧ op.toNat = (s.getV k).toNat * 256 + (s.getV k').toNat

/-! ### The sprite collision detector -/

/-- R141, R143: every pixel is 0, `NextPC()`, and nothing else changes, `VF` included; when `NextPC()` raises, the display is
not cleared. -/
def Obligations.ClearBlanksEveryPixel : Prop :=
  ∀ s : State,
    (∀ p, nextPC s = .ok p →
      ∃ t, exec .cls s = .next t ∧ (∀ r c, pixelAt t.fb r c = false) ∧ FrameBuffer.wf s.cfg t.fb ∧
        t.pc = p.pc ∧ t = { s with fb := t.fb, pc := t.pc, out := t.out }) ∧
    (∀ e, nextPC s = .error e → exec .cls s = .next (s.raise e))

/-- R142, R144 (D4: bit 7 leftmost, log entry 14; D30, D31): DRW flips each pixel once for every 1 bit of the sprite that
wraps onto it; `VF` is 0 or 1, and, when no two bits share a pixel, 1 exactly when a hit pixel was lit; only `FB`, `VF`,
`pc` change. -/
def Obligations.DrawFlipsTheHitPixels : Prop :=
  ∀ (s : State) (x y : Reg) (n : Nat) (rows : List Byte), s.cfg.wf → FrameBuffer.wf s.cfg s.fb →
    n = 0 ∨ s.i.toNat + n ≤ 0x1000 → s.accepts (s.pc.toNat + 2) →
    rows.length = n → (∀ k, k < n → rows.getD k 0 = s.byteAt (s.i.toNat + k)) →
    ∃ t, exec (.drw x y n) s = .next t ∧
      (∀ r c, r < s.cfg.displayH → c < s.cfg.displayW →
        pixelAt t.fb r c = (pixelAt s.fb r c ^^
          decide (spriteHits s.cfg rows (s.getV x).toNat (s.getV y).toNat r c % 2 = 1))) ∧
      FrameBuffer.wf s.cfg t.fb ∧ ((t.getV vf).toNat = 0 ∨ (t.getV vf).toNat = 1) ∧
      (8 ≤ s.cfg.displayW → n ≤ s.cfg.displayH →
        ((t.getV vf).toNat = 1 ↔ ∃ r c, r < s.cfg.displayH ∧ c < s.cfg.displayW ∧
          spriteHits s.cfg rows (s.getV x).toNat (s.getV y).toNat r c ≠ 0 ∧ pixelAt s.fb r c = true)) ∧
      s.advancedTo t ∧ (∀ r, r ≠ vf → t.getV r = s.getV r) ∧
      t = { s with v := t.v, fb := t.fb, pc := t.pc, out := .done }

/-- R145: on a cleared display a sprite drawn once collides with nothing; the same sprite drawn again at the same place
collides exactly when it has a 1 bit, and leaves the display clear. -/
def Obligations.DrawIsInvolutive : Prop :=
  ∀ (s : State) (x y : Reg) (n : Nat), s.cfg.wf → 8 ≤ s.cfg.displayW → n ≤ s.cfg.displayH → s.fb = blankFB s.cfg →
    n = 0 ∨ s.i.toNat + n ≤ 0x1000 → s.accepts (s.pc.toNat + 2) →
    ∃ t, exec (.drw x y n) s = .next t ∧ (t.getV vf).toNat = 0 ∧
      ∀ u : State, u.cfg = s.cfg → u.fb = t.fb → u.i = s.i → u.mem = s.mem → u.getV x = s.getV x →
        u.getV y = s.getV y → u.accepts (u.pc.toNat + 2) →
        ∃ w, exec (.drw x y n) u = .next w ∧ w.fb = blankFB s.cfg ∧
          ((w.getV vf).toNat = 1 ↔ ∃ k, k < n ∧ s.byteAt (s.i.toNat + k) ≠ 0) ∧
          ((w.getV vf).toNat = 0 ∨ (w.getV vf).toNat = 1)

/-- R146: a row drawn one display width further right, or one display height further down, is the same row. -/
def Obligations.DrawWrapsOnBothAxes : Prop :=
  ∀ (w h : Nat) (rowBits : Byte) (x y : Nat) (fb : FrameBuffer),
    drawSpriteRow w h rowBits (x + w) y fb = drawSpriteRow w h rowBits x y fb ∧
    drawSpriteRow w h rowBits x (y + h) fb = drawSpriteRow w h rowBits x y fb

/-! ### Keys and timers -/

/-- R163 (D25): Fx0A records its register, begins the wait and advances `pc`; `V[x]` and all else stay. -/
def Obligations.KeyWaitBegins : Prop :=
  ∀ (s : State) (x : Reg), s.accepts (s.pc.toNat + 2) →
    ∃ t, exec (.ldVxK x) s = .next t ∧ t.mode = .awaitKey ∧ t.kreg = x ∧ s.advancedTo t ∧
      t = { s with mode := t.mode, kreg := t.kreg, pc := t.pc, out := .done }

/-- R168 (D25, D26): a `keyDown(k)` in `AWAIT_KEY` puts `k` in `V[KREG]` and resumes; in any other mode it is discarded. -/
def Obligations.KeyDownEndsTheWait : Prop :=
  ∀ (s : State) (k : BitVec 4) (rest : List Operation), s.pending = .keyDown k :: rest →
    (s.mode = .awaitKey → ∃ t, step s = .next t ∧ t.mode = .running ∧ (t.getV s.kreg).toNat = k.toNat ∧
      (∀ r, r ≠ s.kreg → t.getV r = s.getV r) ∧
      t = { s with v := t.v, mode := t.mode, out := .silent }.endOp) ∧
    (s.mode ≠ .awaitKey → step s = .next { s with out := .silent }.endOp)

/-- R170 to R172: Fx07 copies `DT` to `V[x]`, Fx15 copies `V[x]` to `DT`, Fx18 copies `V[x]` to `ST`, each with `NextPC()`, and
nothing else changes; when `NextPC()` raises, each raises that and has no other effect. -/
def Obligations.TimerInstructionsCopy : Prop :=
  ∀ (s : State) (x : Reg),
    (∀ p, nextPC s = .ok p →
      (∃ t, exec (.ldVxDT x) s = .next t ∧ t.getV x = s.dt ∧ t.pc = p.pc ∧ s.changedOnlyRegs t [x]) ∧
      (∃ t, exec (.ldDTVx x) s = .next t ∧ t.dt = s.getV x ∧ t.pc = p.pc ∧
        t = { s with dt := t.dt, pc := t.pc, out := t.out }) ∧
      (∃ t, exec (.ldSTVx x) s = .next t ∧ t.st = s.getV x ∧ t.pc = p.pc ∧
        t = { s with st := t.st, pc := t.pc, out := t.out })) ∧
    (∀ e, nextPC s = .error e → exec (.ldVxDT x) s = .next (s.raise e) ∧
      exec (.ldDTVx x) s = .next (s.raise e) ∧ exec (.ldSTVx x) s = .next (s.raise e))

/-- R174 (D28: in every mode): `decayTimers()` lowers each nonzero timer by one, never below 0, and changes nothing else. -/
def Obligations.DecayLowersEachTimer : Prop :=
  ∀ (s : State) (rest : List Operation), s.pending = .decayTimers :: rest →
    ∃ t, step s = .next t ∧ t.dt.toNat = s.dt.toNat - 1 ∧ t.st.toNat = s.st.toNat - 1 ∧
      t = { s with dt := t.dt, st := t.st, out := .silent }.endOp

/-- R174 (D28), the document's example S11: after N calls to `decayTimers()` a timer reads `max(0, d - N)`; and the sound is
active exactly while N is below the first value of `ST` (R176, D33). -/
def Obligations.TimersReachZeroAndStay : Prop :=
  ∀ (n : Nat) (s : State) (rest : List Operation), s.pending = List.replicate n .decayTimers ++ rest →
    ∃ t, Host.Core.run Sys2Proof.core n s = .next t ∧ State.dt t = BitVec.ofNat 8 (s.dt.toNat - n) ∧
      State.st t = BitVec.ofNat 8 (s.st.toNat - n) ∧ State.soundActive t = decide (n < s.st.toNat) ∧
      State.pending t = rest

/-! ### Reset and program load -/

/-- R212, R187 (D29): `loadProgram` writes its bytes from 0x200 up and nothing else, or, when they exceed 3584, refuses whole
and changes nothing. -/
def Obligations.LoadProgramWritesVerbatimOrNothing : Prop :=
  ∀ (s : State) (bytes : List Byte) (rest : List Operation), s.pending = .loadProgram bytes :: rest →
    (bytes.length ≤ 3584 → ∃ t, step s = .next t ∧
      (∀ j, j < bytes.length → t.byteAt (0x200 + j) = bytes.getD j 0) ∧
      (∀ a, a < 0x200 ∨ 0x200 + bytes.length ≤ a → t.byteAt a = s.byteAt a) ∧
      t = { s with mem := t.mem, out := .loaded }.endOp) ∧
    (3584 < bytes.length → step s = .next { s with out := .imageTooLarge }.endOp)

/-- R211 (D6, D7): `reset()` restarts registers, stack, timers, mode and fault record and keeps `Mem`, `FB` and `cfg`, in
every mode. -/
def Obligations.ResetRestartsWithoutReloading : Prop :=
  ∀ (s : State) (rest : List Operation), s.pending = .reset :: rest →
    ∃ t, step s = .next t ∧ (∀ r, t.getV r = 0) ∧ t.i = 0 ∧ t.pc = 0x200 ∧ t.sp.val = 0 ∧
      (∀ k : Fin 16, t.stack[k.val] = 0) ∧ t.dt = 0 ∧ t.st = 0 ∧ t.mode = .running ∧ t.kreg = 0 ∧
      t.fcause = .none ∧ t.finfo = 0 ∧ t.mem = s.mem ∧ t.fb = s.fb ∧ t.cfg = s.cfg

/-- R210, R26 (D3, D5, D6): after `power_on(cfg)` the registers are 0, `pc` is 0x200, memory holds the font table at its base
and `MEM_FILL` everywhere else, every pixel is 0. -/
def Obligations.PowerOnInitialisesEverything : Prop :=
  ∀ (s : State) (cfg : Config) (rest : List Operation), s.pending = .powerOn cfg :: rest → cfg.wf →
    ∃ t, step s = .next t ∧ (∀ r, t.getV r = 0) ∧ t.i = 0 ∧ t.pc = 0x200 ∧ t.sp.val = 0 ∧
      (∀ k : Fin 16, t.stack[k.val] = 0) ∧ t.dt = 0 ∧ t.st = 0 ∧ t.mode = .running ∧ t.kreg = 0 ∧
      t.fcause = .none ∧ t.finfo = 0 ∧ t.cfg = cfg ∧ (∀ r c, pixelAt t.fb r c = false) ∧
      (∀ j, j < 16 * cfg.fontStride → t.byteAt (cfg.fontBase + j) = cfg.fontData.getD j 0) ∧
      (∀ a, a < cfg.fontBase ∨ cfg.fontBase + 16 * cfg.fontStride ≤ a → t.byteAt a = cfg.memFill)
end

