-- ==== Sys2Proof/Laws/Decode.lean ====
section
/-!
SUPPORT. The fields of an encoded word are what was encoded (R61), a word is the encoding of its fields, and its bytes
give it back (R44). Each is a fact about the word as a number.
-/

namespace Sys2Proof

variable (f n : BitVec 4) (x y : Reg) (kk : Byte) (nnn : BitVec 12) (op : Word)

/-! ### Words as numbers -/

theorem toNat_append {v w : Nat} (a : BitVec v) (b : BitVec w) : (a ++ b).toNat = a.toNat * 2 ^ w + b.toNat := by
  rw [BitVec.toNat_append, ← Nat.shiftLeft_add_eq_or_of_lt b.isLt, Nat.shiftLeft_eq]

@[simp] theorem toNat_regField : (regField x).toNat = x.val := rfl

theorem toNat_encNNN : (encNNN f nnn).toNat = f.toNat * 0x1000 + nnn.toNat := toNat_append f nnn

theorem toNat_encXKK : (encXKK f x kk).toNat = f.toNat * 0x1000 + (x.val * 0x100 + kk.toNat) :=
  (toNat_append f (regField x ++ kk)).trans (by rw [toNat_append]; rfl)

theorem toNat_encXYN : (encXYN f x y n).toNat = f.toNat * 0x1000 + (x.val * 0x100 + (y.val * 0x10 + n.toNat)) :=
  (toNat_append f (regField x ++ (regField y ++ n))).trans (by rw [toNat_append, toNat_append]; rfl)

theorem toNat_wordOfBytes (hi lo : Byte) : (wordOfBytes hi lo).toNat = hi.toNat * 256 + lo.toNat := toNat_append hi lo

theorem toNat_family : (family op).toNat = op.toNat / 0x1000 := by
  have := op.isLt
  simp only [family, BitVec.extractLsb'_toNat, Nat.shiftRight_eq_div_pow]
  omega

theorem val_fieldX : (fieldX op).val = op.toNat / 0x100 % 0x10 := by
  simp only [fieldX, BitVec.val_toFin, BitVec.extractLsb'_toNat, Nat.shiftRight_eq_div_pow]

theorem val_fieldY : (fieldY op).val = op.toNat / 0x10 % 0x10 := by
  simp only [fieldY, BitVec.val_toFin, BitVec.extractLsb'_toNat, Nat.shiftRight_eq_div_pow]

theorem toNat_fieldN : (fieldN op).toNat = op.toNat % 0x10 := by simp [fieldN]

theorem toNat_fieldKK : (fieldKK op).toNat = op.toNat % 0x100 := by simp [fieldKK]

theorem toNat_fieldNNN : (fieldNNN op).toNat = op.toNat % 0x1000 := by simp [fieldNNN]

/-! ### Fields of encoded words -/

theorem family_encNNN : family (encNNN f nnn) = f := by
  apply BitVec.eq_of_toNat_eq
  rw [toNat_family, toNat_encNNN]
  omega

theorem fieldNNN_encNNN : fieldNNN (encNNN f nnn) = nnn := by
  apply BitVec.eq_of_toNat_eq
  rw [toNat_fieldNNN, toNat_encNNN]
  omega

theorem family_encXKK : family (encXKK f x kk) = f := by
  apply BitVec.eq_of_toNat_eq
  rw [toNat_family, toNat_encXKK]
  omega

theorem fieldX_encXKK : fieldX (encXKK f x kk) = x := by
  apply Fin.ext
  rw [val_fieldX, toNat_encXKK]
  omega

theorem fieldKK_encXKK : fieldKK (encXKK f x kk) = kk := by
  apply BitVec.eq_of_toNat_eq
  rw [toNat_fieldKK, toNat_encXKK]
  omega

theorem family_encXYN : family (encXYN f x y n) = f := by
  apply BitVec.eq_of_toNat_eq
  rw [toNat_family, toNat_encXYN]
  omega

theorem fieldX_encXYN : fieldX (encXYN f x y n) = x := by
  apply Fin.ext
  rw [val_fieldX, toNat_encXYN]
  omega

theorem fieldY_encXYN : fieldY (encXYN f x y n) = y := by
  apply Fin.ext
  rw [val_fieldY, toNat_encXYN]
  omega

theorem fieldN_encXYN : fieldN (encXYN f x y n) = n := by
  apply BitVec.eq_of_toNat_eq
  rw [toNat_fieldN, toNat_encXYN]
  omega

/-! ### A word is the encoding of its fields -/

theorem encNNN_fields : encNNN (family op) (fieldNNN op) = op := by
  apply BitVec.eq_of_toNat_eq
  rw [toNat_encNNN, toNat_family, toNat_fieldNNN]
  omega

theorem encXKK_fields : encXKK (family op) (fieldX op) (fieldKK op) = op := by
  apply BitVec.eq_of_toNat_eq
  rw [toNat_encXKK, toNat_family, val_fieldX, toNat_fieldKK]
  omega

theorem encXYN_fields : encXYN (family op) (fieldX op) (fieldY op) (fieldN op) = op := by
  apply BitVec.eq_of_toNat_eq
  rw [toNat_encXYN, toNat_family, val_fieldX, val_fieldY, toNat_fieldN]
  omega

/-- The two bytes of a word, in memory order, give it back (R44). -/
theorem wordOfBytes_bytes : wordOfBytes (op.extractLsb' 8 8) (op.extractLsb' 0 8) = op := by
  apply BitVec.eq_of_toNat_eq
  have := op.isLt
  rw [toNat_wordOfBytes]
  simp only [BitVec.extractLsb'_toNat, Nat.shiftRight_eq_div_pow]
  omega

@[simp] theorem tableWord_toNat : tableWord 16 op.toNat = op := by
  apply BitVec.eq_of_toNat_eq
  have := op.isLt
  simp only [tableWord, BitVec.toNat_ofNat]
  omega

end Sys2Proof
end

