-- ==== Sys2Proof/Laws/State.lean ====
section
/-!
SUPPORT. One lemma per field per named state update, true by unfolding the update once, so that no later proof unfolds
it; and `exec` arm by arm as the meaning it calls.
-/

namespace Sys2Proof.Machine

/-! ### `setV` -/

@[simp] theorem State.setV_cfg (s : State) (x : Reg) (b : Byte) : (s.setV x b).cfg = s.cfg := rfl
@[simp] theorem State.setV_v (s : State) (x : Reg) (b : Byte) : (s.setV x b).v = s.v.set x.val b := rfl
@[simp] theorem State.setV_i (s : State) (x : Reg) (b : Byte) : (s.setV x b).i = s.i := rfl
@[simp] theorem State.setV_pc (s : State) (x : Reg) (b : Byte) : (s.setV x b).pc = s.pc := rfl
@[simp] theorem State.setV_stack (s : State) (x : Reg) (b : Byte) : (s.setV x b).stack = s.stack := rfl
@[simp] theorem State.setV_sp (s : State) (x : Reg) (b : Byte) : (s.setV x b).sp = s.sp := rfl
@[simp] theorem State.setV_dt (s : State) (x : Reg) (b : Byte) : (s.setV x b).dt = s.dt := rfl
@[simp] theorem State.setV_st (s : State) (x : Reg) (b : Byte) : (s.setV x b).st = s.st := rfl
@[simp] theorem State.setV_mode (s : State) (x : Reg) (b : Byte) : (s.setV x b).mode = s.mode := rfl
@[simp] theorem State.setV_kreg (s : State) (x : Reg) (b : Byte) : (s.setV x b).kreg = s.kreg := rfl
@[simp] theorem State.setV_fcause (s : State) (x : Reg) (b : Byte) : (s.setV x b).fcause = s.fcause := rfl
@[simp] theorem State.setV_finfo (s : State) (x : Reg) (b : Byte) : (s.setV x b).finfo = s.finfo := rfl
@[simp] theorem State.setV_mem (s : State) (x : Reg) (b : Byte) : (s.setV x b).mem = s.mem := rfl
@[simp] theorem State.setV_fb (s : State) (x : Reg) (b : Byte) : (s.setV x b).fb = s.fb := rfl
@[simp] theorem State.setV_out (s : State) (x : Reg) (b : Byte) : (s.setV x b).out = s.out := rfl
@[simp] theorem State.setV_pending (s : State) (x : Reg) (b : Byte) : (s.setV x b).pending = s.pending := rfl
@[simp] theorem State.setV_tick (s : State) (x : Reg) (b : Byte) : (s.setV x b).tick = s.tick := rfl

/-! ### `setResultAndFlag` -/

@[simp] theorem State.setResultAndFlag_cfg (s : State) (x : Reg) (b c : Byte) : (s.setResultAndFlag x b c).cfg = s.cfg := rfl
@[simp] theorem State.setResultAndFlag_v (s : State) (x : Reg) (b c : Byte) : (s.setResultAndFlag x b c).v = (s.v.set x.val b).set vf.val c := rfl
@[simp] theorem State.setResultAndFlag_i (s : State) (x : Reg) (b c : Byte) : (s.setResultAndFlag x b c).i = s.i := rfl
@[simp] theorem State.setResultAndFlag_pc (s : State) (x : Reg) (b c : Byte) : (s.setResultAndFlag x b c).pc = s.pc := rfl
@[simp] theorem State.setResultAndFlag_stack (s : State) (x : Reg) (b c : Byte) : (s.setResultAndFlag x b c).stack = s.stack := rfl
@[simp] theorem State.setResultAndFlag_sp (s : State) (x : Reg) (b c : Byte) : (s.setResultAndFlag x b c).sp = s.sp := rfl
@[simp] theorem State.setResultAndFlag_dt (s : State) (x : Reg) (b c : Byte) : (s.setResultAndFlag x b c).dt = s.dt := rfl
@[simp] theorem State.setResultAndFlag_st (s : State) (x : Reg) (b c : Byte) : (s.setResultAndFlag x b c).st = s.st := rfl
@[simp] theorem State.setResultAndFlag_mode (s : State) (x : Reg) (b c : Byte) : (s.setResultAndFlag x b c).mode = s.mode := rfl
@[simp] theorem State.setResultAndFlag_kreg (s : State) (x : Reg) (b c : Byte) : (s.setResultAndFlag x b c).kreg = s.kreg := rfl
@[simp] theorem State.setResultAndFlag_fcause (s : State) (x : Reg) (b c : Byte) : (s.setResultAndFlag x b c).fcause = s.fcause := rfl
@[simp] theorem State.setResultAndFlag_finfo (s : State) (x : Reg) (b c : Byte) : (s.setResultAndFlag x b c).finfo = s.finfo := rfl
@[simp] theorem State.setResultAndFlag_mem (s : State) (x : Reg) (b c : Byte) : (s.setResultAndFlag x b c).mem = s.mem := rfl
@[simp] theorem State.setResultAndFlag_fb (s : State) (x : Reg) (b c : Byte) : (s.setResultAndFlag x b c).fb = s.fb := rfl
@[simp] theorem State.setResultAndFlag_out (s : State) (x : Reg) (b c : Byte) : (s.setResultAndFlag x b c).out = s.out := rfl
@[simp] theorem State.setResultAndFlag_pending (s : State) (x : Reg) (b c : Byte) : (s.setResultAndFlag x b c).pending = s.pending := rfl
@[simp] theorem State.setResultAndFlag_tick (s : State) (x : Reg) (b c : Byte) : (s.setResultAndFlag x b c).tick = s.tick := rfl

/-! ### `raise` -/

@[simp] theorem State.raise_cfg (s : State) (e : Trap) : (s.raise e).cfg = s.cfg := rfl
@[simp] theorem State.raise_v (s : State) (e : Trap) : (s.raise e).v = s.v := rfl
@[simp] theorem State.raise_i (s : State) (e : Trap) : (s.raise e).i = s.i := rfl
@[simp] theorem State.raise_pc (s : State) (e : Trap) : (s.raise e).pc = s.pc := rfl
@[simp] theorem State.raise_stack (s : State) (e : Trap) : (s.raise e).stack = s.stack := rfl
@[simp] theorem State.raise_sp (s : State) (e : Trap) : (s.raise e).sp = s.sp := rfl
@[simp] theorem State.raise_dt (s : State) (e : Trap) : (s.raise e).dt = s.dt := rfl
@[simp] theorem State.raise_st (s : State) (e : Trap) : (s.raise e).st = s.st := rfl
@[simp] theorem State.raise_mode (s : State) (e : Trap) : (s.raise e).mode = .faulted := rfl
@[simp] theorem State.raise_kreg (s : State) (e : Trap) : (s.raise e).kreg = s.kreg := rfl
@[simp] theorem State.raise_fcause (s : State) (e : Trap) : (s.raise e).fcause = e.cause := rfl
@[simp] theorem State.raise_finfo (s : State) (e : Trap) : (s.raise e).finfo = e.info := rfl
@[simp] theorem State.raise_mem (s : State) (e : Trap) : (s.raise e).mem = s.mem := rfl
@[simp] theorem State.raise_fb (s : State) (e : Trap) : (s.raise e).fb = s.fb := rfl
@[simp] theorem State.raise_out (s : State) (e : Trap) : (s.raise e).out = .fault e.cause e.info := rfl
@[simp] theorem State.raise_pending (s : State) (e : Trap) : (s.raise e).pending = s.pending := rfl
@[simp] theorem State.raise_tick (s : State) (e : Trap) : (s.raise e).tick = s.tick := rfl

/-! ### `endOp` -/

@[simp] theorem State.endOp_cfg (s : State) : (s.endOp).cfg = s.cfg := rfl
@[simp] theorem State.endOp_v (s : State) : (s.endOp).v = s.v := rfl
@[simp] theorem State.endOp_i (s : State) : (s.endOp).i = s.i := rfl
@[simp] theorem State.endOp_pc (s : State) : (s.endOp).pc = s.pc := rfl
@[simp] theorem State.endOp_stack (s : State) : (s.endOp).stack = s.stack := rfl
@[simp] theorem State.endOp_sp (s : State) : (s.endOp).sp = s.sp := rfl
@[simp] theorem State.endOp_dt (s : State) : (s.endOp).dt = s.dt := rfl
@[simp] theorem State.endOp_st (s : State) : (s.endOp).st = s.st := rfl
@[simp] theorem State.endOp_mode (s : State) : (s.endOp).mode = s.mode := rfl
@[simp] theorem State.endOp_kreg (s : State) : (s.endOp).kreg = s.kreg := rfl
@[simp] theorem State.endOp_fcause (s : State) : (s.endOp).fcause = s.fcause := rfl
@[simp] theorem State.endOp_finfo (s : State) : (s.endOp).finfo = s.finfo := rfl
@[simp] theorem State.endOp_mem (s : State) : (s.endOp).mem = s.mem := rfl
@[simp] theorem State.endOp_fb (s : State) : (s.endOp).fb = s.fb := rfl
@[simp] theorem State.endOp_out (s : State) : (s.endOp).out = s.out := rfl
@[simp] theorem State.endOp_pending (s : State) : (s.endOp).pending = s.pending.tail := rfl
@[simp] theorem State.endOp_tick (s : State) : (s.endOp).tick = s.tick + 1 := rfl

/-! ### `settle`, `commit`, `endOperation` -/

@[simp] theorem State.settle_ok (s t : State) (r : Report) : s.settle r (.ok t) = { t with out := r } := rfl
@[simp] theorem State.settle_error (s : State) (e : Trap) (r : Report) : s.settle r (.error e) = s.raise e := rfl
@[simp] theorem endOperation_next (s : State) : endOperation (.next s) = .next s.endOp := rfl

/-- What a committed instruction answers: its writes with `Done`, or its fault (R48, R182). -/
theorem commit_next_iff {s t : State} {r : Except Trap State} :
    commit s r = .next t ↔ (∃ u, r = .ok u ∧ t = { u with out := .done }) ∨ (∃ e, r = .error e ∧ t = s.raise e) := by
  cases r <;> simp [commit, eq_comm]

@[simp] theorem commit_ok (s t : State) : commit s (.ok t) = .next { t with out := .done } := rfl
@[simp] theorem commit_error (s : State) (e : Trap) : commit s (.error e) = .next (s.raise e) := rfl

/-! ### `powerOn` -/

@[simp] theorem State.powerOn_cfg (cfg : Config) : (State.powerOn cfg).cfg = cfg := rfl
@[simp] theorem State.powerOn_v (cfg : Config) : (State.powerOn cfg).v = Vector.replicate 16 0 := rfl
@[simp] theorem State.powerOn_i (cfg : Config) : (State.powerOn cfg).i = 0 := rfl
@[simp] theorem State.powerOn_pc (cfg : Config) : (State.powerOn cfg).pc = 0x200 := rfl
@[simp] theorem State.powerOn_stack (cfg : Config) : (State.powerOn cfg).stack = Vector.replicate 16 0 := rfl
@[simp] theorem State.powerOn_sp (cfg : Config) : (State.powerOn cfg).sp = 0 := rfl
@[simp] theorem State.powerOn_dt (cfg : Config) : (State.powerOn cfg).dt = 0 := rfl
@[simp] theorem State.powerOn_st (cfg : Config) : (State.powerOn cfg).st = 0 := rfl
@[simp] theorem State.powerOn_mode (cfg : Config) : (State.powerOn cfg).mode = .running := rfl
@[simp] theorem State.powerOn_kreg (cfg : Config) : (State.powerOn cfg).kreg = 0 := rfl
@[simp] theorem State.powerOn_fcause (cfg : Config) : (State.powerOn cfg).fcause = .none := rfl
@[simp] theorem State.powerOn_finfo (cfg : Config) : (State.powerOn cfg).finfo = 0 := rfl
@[simp] theorem State.powerOn_mem (cfg : Config) : (State.powerOn cfg).mem = [] := rfl
@[simp] theorem State.powerOn_fb (cfg : Config) : (State.powerOn cfg).fb = blankFB cfg := rfl
@[simp] theorem State.powerOn_out (cfg : Config) : (State.powerOn cfg).out = .silent := rfl
@[simp] theorem State.powerOn_pending (cfg : Config) : (State.powerOn cfg).pending = [] := rfl
@[simp] theorem State.powerOn_tick (cfg : Config) : (State.powerOn cfg).tick = 0 := rfl

/-! ### `exec`, arm by arm -/

theorem exec_cls (s : State) : exec .cls s = execCls s := rfl
theorem exec_ret (s : State) : exec .ret s = execRet s := rfl
theorem exec_jp (nnn : BitVec 12) (s : State) : exec (.jp nnn) s = execJp nnn s := rfl
theorem exec_call (nnn : BitVec 12) (s : State) : exec (.call nnn) s = execCall nnn s := rfl
theorem exec_seByte (x : Reg) (kk : Byte) (s : State) : exec (.seByte x kk) s = execSeByte x kk s := rfl
theorem exec_sneByte (x : Reg) (kk : Byte) (s : State) : exec (.sneByte x kk) s = execSneByte x kk s := rfl
theorem exec_seReg (x : Reg) (y : Reg) (s : State) : exec (.seReg x y) s = execSeReg x y s := rfl
theorem exec_ldByte (x : Reg) (kk : Byte) (s : State) : exec (.ldByte x kk) s = execLdByte x kk s := rfl
theorem exec_addByte (x : Reg) (kk : Byte) (s : State) : exec (.addByte x kk) s = execAddByte x kk s := rfl
theorem exec_ldReg (x : Reg) (y : Reg) (s : State) : exec (.ldReg x y) s = execLdReg x y s := rfl
theorem exec_orReg (x : Reg) (y : Reg) (s : State) : exec (.orReg x y) s = execOrReg x y s := rfl
theorem exec_andReg (x : Reg) (y : Reg) (s : State) : exec (.andReg x y) s = execAndReg x y s := rfl
theorem exec_xorReg (x : Reg) (y : Reg) (s : State) : exec (.xorReg x y) s = execXorReg x y s := rfl
theorem exec_addReg (x : Reg) (y : Reg) (s : State) : exec (.addReg x y) s = execAddReg x y s := rfl
theorem exec_sub (x : Reg) (y : Reg) (s : State) : exec (.sub x y) s = execSub x y s := rfl
theorem exec_shr (x : Reg) (y : Reg) (s : State) : exec (.shr x y) s = execShr x y s := rfl
theorem exec_subn (x : Reg) (y : Reg) (s : State) : exec (.subn x y) s = execSubn x y s := rfl
theorem exec_shl (x : Reg) (y : Reg) (s : State) : exec (.shl x y) s = execShl x y s := rfl
theorem exec_sneReg (x : Reg) (y : Reg) (s : State) : exec (.sneReg x y) s = execSneReg x y s := rfl
theorem exec_ldI (nnn : BitVec 12) (s : State) : exec (.ldI nnn) s = execLdI nnn s := rfl
theorem exec_jpV0 (nnn : BitVec 12) (s : State) : exec (.jpV0 nnn) s = execJpV0 nnn s := rfl
theorem exec_rnd (x : Reg) (kk : Byte) (s : State) : exec (.rnd x kk) s = execRnd x kk s := rfl
theorem exec_drw (x : Reg) (y : Reg) (n : Nat) (s : State) : exec (.drw x y n) s = execDrw x y n s := rfl
theorem exec_skp (x : Reg) (s : State) : exec (.skp x) s = execSkp x s := rfl
theorem exec_sknp (x : Reg) (s : State) : exec (.sknp x) s = execSknp x s := rfl
theorem exec_ldVxDT (x : Reg) (s : State) : exec (.ldVxDT x) s = execLdVxDT x s := rfl
theorem exec_ldVxK (x : Reg) (s : State) : exec (.ldVxK x) s = execLdVxK x s := rfl
theorem exec_ldDTVx (x : Reg) (s : State) : exec (.ldDTVx x) s = execLdDTVx x s := rfl
theorem exec_ldSTVx (x : Reg) (s : State) : exec (.ldSTVx x) s = execLdSTVx x s := rfl
theorem exec_addI (x : Reg) (s : State) : exec (.addI x) s = execAddI x s := rfl
theorem exec_ldF (x : Reg) (s : State) : exec (.ldF x) s = execLdF x s := rfl
theorem exec_ldB (x : Reg) (s : State) : exec (.ldB x) s = execLdB x s := rfl
theorem exec_stRegs (x : Reg) (s : State) : exec (.stRegs x) s = execStRegs x s := rfl
theorem exec_ldRegs (x : Reg) (s : State) : exec (.ldRegs x) s = execLdRegs x s := rfl

end Sys2Proof.Machine
end

