-- ==== Sys2Proof/Laws/Memory.lean ====
section
/-!
SUPPORT. The laws of memory: a read after a write, the canonical form kept by every memory operation, and that equal
contents are equal data.
-/

namespace Sys2Proof.Machine

variable {cfg : Config} {m : Memory} {a a' : Nat} {b : Byte}

/-! ### Entries -/

@[simp] theorem Memory.lookup_nil : Memory.lookup [] a = none := rfl

theorem Memory.lookup_insert (m : Memory) (a : Nat) (b : Byte) (a' : Nat) :
    (m.insert a b).lookup a' = if a = a' then some b else m.lookup a' := by
  induction m with
  | nil => simp [Memory.insert, Memory.lookup]
  | cons c m ih =>
    simp only [Memory.insert]
    by_cases h1 : a < c.1
    · simp [h1, Memory.lookup]
    · by_cases h2 : c.1 = a
      · rw [if_neg h1, if_pos h2]
        simp only [Memory.lookup, h2]
        by_cases h3 : a = a' <;> simp [h3]
      · simp only [h1, h2, if_false, Memory.lookup, ih]
        by_cases h3 : a = a' <;> by_cases h4 : c.1 = a' <;> simp_all

theorem Memory.lookup_erase (m : Memory) (a a' : Nat) :
    (m.erase a).lookup a' = if a = a' then none else m.lookup a' := by
  induction m with
  | nil => simp [Memory.erase, Memory.lookup]
  | cons c m ih =>
    simp only [Memory.erase] at ih ⊢
    by_cases h : c.1 = a
    · rw [List.filter_cons_of_neg (by simp [h]), ih, Memory.lookup]
      by_cases h3 : a = a' <;> simp [h, h3]
    · rw [List.filter_cons_of_pos (by simp [h]), Memory.lookup, Memory.lookup, ih]
      by_cases h3 : a = a' <;> by_cases h4 : c.1 = a' <;> simp_all

/-! ### Read after write -/

@[simp] theorem Memory.read_nil : Memory.read cfg [] a = background cfg a := rfl

/-- A byte reads as the last value written to it, any other byte as before (R43, R51). -/
theorem Memory.read_write (cfg : Config) (m : Memory) (a : Nat) (b : Byte) (a' : Nat) :
    (m.write cfg a b).read cfg a' = if a = a' then b else m.read cfg a' := by
  unfold Memory.write Memory.read
  by_cases hb : b = background cfg a
  · rw [if_pos hb, Memory.lookup_erase]
    by_cases h : a = a'
    · subst h; simp [hb]
    · simp [h]
  · rw [if_neg hb, Memory.lookup_insert]
    by_cases h : a = a' <;> simp [h]

/-- Bytes written at `a` up read back in order; every byte outside them reads as before (R45). -/
theorem Memory.read_writeBytes (cfg : Config) (bs : List Byte) :
    ∀ (m : Memory) (a a' : Nat), (m.writeBytes cfg a bs).read cfg a' =
      if a ≤ a' ∧ a' < a + bs.length then bs.getD (a' - a) 0 else m.read cfg a' := by
  induction bs with
  | nil => intro m a a'; simp only [Memory.writeBytes, List.length_nil]; rw [if_neg (by omega)]
  | cons b bs ih =>
    intro m a a'
    simp only [Memory.writeBytes, ih, Memory.read_write, List.length_cons]
    by_cases h1 : a = a'
    · subst h1; simp
    · by_cases h2 : a + 1 ≤ a' ∧ a' < a + 1 + bs.length
      · have : a' - a = (a' - (a + 1)) + 1 := by omega
        rw [if_pos h2, if_pos (by omega), this, List.getD_cons_succ]
      · rw [if_neg h2, if_neg h1, if_neg (by omega)]

theorem Memory.read_writeBytes_inside {bs : List Byte} {k : Nat} (h : k < bs.length) :
    (m.writeBytes cfg a bs).read cfg (a + k) = bs.getD k 0 := by
  rw [Memory.read_writeBytes, if_pos (by omega), Nat.add_sub_cancel_left]

theorem Memory.read_writeBytes_outside {bs : List Byte} (h : a' < a ∨ a + bs.length ≤ a') :
    (m.writeBytes cfg a bs).read cfg a' = m.read cfg a' := by
  rw [Memory.read_writeBytes, if_neg (by omega)]

@[simp] theorem Memory.length_readBytes (n : Nat) : (m.readBytes cfg a n).length = n := by simp [Memory.readBytes]

theorem Memory.getD_readBytes {n k : Nat} (h : k < n) : (m.readBytes cfg a n).getD k 0 = m.read cfg (a + k) := by
  simp [Memory.readBytes, List.getD, h]

/-- A list of the right bytes is what a read of them gives. -/
theorem Memory.eq_readBytes {rows : List Byte} {n : Nat} (hl : rows.length = n)
    (h : ∀ k, k < n → rows.getD k 0 = m.read cfg (a + k)) : rows = m.readBytes cfg a n := by
  apply List.ext_getElem (by simp [hl])
  intro k h1 h2
  have := h k (by omega)
  rw [List.getD_eq_getElem _ _ h1] at this
  rw [this]
  simp [Memory.readBytes]

/-! ### The canonical form -/

theorem Memory.wf_nil (cfg : Config) : Memory.wf cfg [] := by simp [Memory.wf]

theorem Memory.mem_insert {c : Host.Cell} : ∀ {m : Memory}, c ∈ m.insert a b → c = (a, b) ∨ c ∈ m := by
  intro m
  induction m with
  | nil => simp [Memory.insert]
  | cons d m ih =>
    simp only [Memory.insert]
    split
    · simp
    · split
      · simp; tauto
      · simp only [List.mem_cons]; tauto

theorem Memory.pairwise_insert : ∀ {m : Memory}, m.Pairwise (fun c d => c.1 < d.1) →
    (m.insert a b).Pairwise (fun c d => c.1 < d.1) := by
  intro m
  induction m with
  | nil => simp [Memory.insert]
  | cons d m ih =>
    intro h
    rw [List.pairwise_cons] at h
    simp only [Memory.insert]
    split
    · rename_i hlt
      refine List.pairwise_cons.2 ⟨?_, List.pairwise_cons.2 h⟩
      intro c hc
      rcases List.mem_cons.1 hc with rfl | hc
      · exact hlt
      · exact lt_trans hlt (h.1 c hc)
    · rename_i hlt
      split
      · rename_i heq
        exact List.pairwise_cons.2 ⟨fun c hc => heq ▸ h.1 c hc, h.2⟩
      · rename_i hne
        refine List.pairwise_cons.2 ⟨?_, ih h.2⟩
        intro c hc
        rcases Memory.mem_insert hc with rfl | hc
        · simp only; omega
        · exact h.1 c hc

/-- A write inside the address space keeps the canonical form. -/
theorem Memory.wf_write (h : Memory.wf cfg m) (ha : a ≤ 0xFFF) : Memory.wf cfg (m.write cfg a b) := by
  unfold Memory.write
  split
  · exact ⟨h.1.sublist List.filter_sublist, fun c hc => h.2 c (List.mem_filter.1 hc).1⟩
  · rename_i hb
    refine ⟨Memory.pairwise_insert h.1, fun c hc => ?_⟩
    rcases Memory.mem_insert hc with rfl | hc
    · exact ⟨ha, hb⟩
    · exact h.2 c hc

/-- Writing bytes inside the address space keeps the canonical form. -/
theorem Memory.wf_writeBytes {bs : List Byte} : ∀ {m : Memory} {a : Nat}, Memory.wf cfg m →
    a + bs.length ≤ 0x1000 → Memory.wf cfg (m.writeBytes cfg a bs) := by
  induction bs with
  | nil => intro m a h _; exact h
  | cons b bs ih =>
    intro m a h hl
    simp only [List.length_cons] at hl
    exact ih (Memory.wf_write h (by omega)) (by omega)

theorem Memory.lookup_none_of_lt {x : Nat} (h : ∀ c ∈ m, x < c.1) : m.lookup x = none := by
  induction m with
  | nil => rfl
  | cons d m ih =>
    rw [Memory.lookup, if_neg (by have := h d (by simp); omega)]
    exact ih (fun c hc => h c (by simp [hc]))

theorem Memory.lookup_ne_background (h : Memory.wf cfg m) : m.lookup a ≠ some (background cfg a) := by
  induction m with
  | nil => simp
  | cons c m ih =>
    rw [Memory.lookup]
    split
    · rename_i heq
      intro hb
      exact (h.2 c (by simp)).2 (by rw [heq]; exact Option.some.inj hb)
    · exact ih ⟨(List.pairwise_cons.1 h.1).2, fun d hd => h.2 d (by simp [hd])⟩

theorem Memory.lookup_eq_of_read_eq {m' : Memory} (h : Memory.wf cfg m) (h' : Memory.wf cfg m')
    (hr : m.read cfg a = m'.read cfg a) : m.lookup a = m'.lookup a := by
  have k := Memory.lookup_ne_background (a := a) h
  have k' := Memory.lookup_ne_background (a := a) h'
  unfold Memory.read at hr
  cases hm : m.lookup a <;> cases hm' : m'.lookup a <;> simp_all

/-- Two canonical memories with the same contents are equal data. -/
theorem Memory.ext_of_read : ∀ {m m' : Memory}, Memory.wf cfg m → Memory.wf cfg m' →
    (∀ a, m.read cfg a = m'.read cfg a) → m = m' := by
  have key : ∀ {m m' : Memory}, m.Pairwise (fun c d => c.1 < d.1) → m'.Pairwise (fun c d => c.1 < d.1) →
      (∀ a, m.lookup a = m'.lookup a) → m = m' := by
    intro m
    induction m with
    | nil =>
      intro m' _ _ hl
      cases m' with
      | nil => rfl
      | cons c m' => have := hl c.1; simp [Memory.lookup] at this
    | cons c m ih =>
      intro m' h h' hl
      cases m' with
      | nil => have := hl c.1; simp [Memory.lookup] at this
      | cons c' m' =>
        rw [List.pairwise_cons] at h h'
        have hc : c.1 = c'.1 := by
          rcases Nat.lt_trichotomy c.1 c'.1 with hlt | heq | hgt
          · have h1 := hl c.1
            rw [Memory.lookup, if_pos rfl, Memory.lookup, if_neg (by omega),
              Memory.lookup_none_of_lt (fun d hd => lt_trans hlt (h'.1 d hd))] at h1
            cases h1
          · exact heq
          · have h1 := hl c'.1
            rw [Memory.lookup, if_neg (by omega),
              Memory.lookup_none_of_lt (fun d hd => lt_trans hgt (h.1 d hd)), Memory.lookup, if_pos rfl] at h1
            cases h1
        have h2 : c.2 = c'.2 := by
          have h1 := hl c.1
          rw [Memory.lookup, if_pos rfl, Memory.lookup, if_pos hc.symm] at h1
          exact Option.some.inj h1
        have hcc : c = c' := Prod.ext hc h2
        rw [hcc]
        congr 1
        refine ih h.2 h'.2 (fun x => ?_)
        by_cases hx : c.1 = x
        · rw [Memory.lookup_none_of_lt (fun d hd => hx ▸ h.1 d hd),
            Memory.lookup_none_of_lt (fun d hd => hx ▸ hc ▸ h'.1 d hd)]
        · have h1 := hl x
          rwa [Memory.lookup, if_neg hx, Memory.lookup, if_neg (hc ▸ hx)] at h1
  intro m m' h h' hr
  exact key h.1 h'.1 (fun a => Memory.lookup_eq_of_read_eq h h' (hr a))

end Sys2Proof.Machine
end

