-- ==== Sys2Proof/Laws/Ops.lean ====
section
/-!
SUPPORT. One specification lemma per shared operation of Machine/Ops.lean, Operands.lean and Flags.lean: everything it
can answer, and what it leaves unchanged.
-/

namespace Sys2Proof.Machine

variable {s t : State}

/-! ### General registers -/

theorem State.getV_setV (s : State) (x r : Reg) (b : Byte) :
    (s.setV x b).getV r = if r = x then b else s.getV r := by
  unfold State.getV State.setV
  by_cases h : r = x
  · subst h; simp
  · rw [if_neg h]
    simp only
    rw [Vector.getElem_set_ne]
    exact fun hv => h (Fin.ext hv.symm)

@[simp] theorem State.getV_setV_self (s : State) (x : Reg) (b : Byte) : (s.setV x b).getV x = b := by
  simp [State.getV_setV]

theorem State.getV_setV_ne {x r : Reg} (b : Byte) (h : r ≠ x) : (s.setV x b).getV r = s.getV r := by
  simp [State.getV_setV, h]

/-- Registers depend on the field `v` alone. -/
theorem State.getV_congr (h : t.v = s.v) (r : Reg) : t.getV r = s.getV r := by simp [State.getV, h]

theorem State.getV_setResultAndFlag (s : State) (x r : Reg) (b c : Byte) :
    (s.setResultAndFlag x b c).getV r = if r = vf then c else if r = x then b else s.getV r := by
  simp [State.setResultAndFlag, State.getV_setV]

theorem getElem_setRegsFrom (bs : List Byte) : ∀ (v : Vector Byte 16) (k r : Nat) (hr : r < 16),
    (setRegsFrom v k bs)[r] = if k ≤ r ∧ r < k + bs.length then bs.getD (r - k) 0 else v[r] := by
  induction bs with
  | nil => intro v k r hr; simp only [setRegsFrom, List.length_nil]; rw [if_neg (by omega)]
  | cons b bs ih =>
    intro v k r hr
    refine (ih _ (k + 1) r hr).trans ?_
    simp only [List.length_cons]
    by_cases h1 : k = r
    · subst h1
      rw [if_neg (by omega), if_pos (by omega)]
      simp [hr]
    · by_cases h2 : k + 1 ≤ r ∧ r < k + 1 + bs.length
      · have : r - k = (r - (k + 1)) + 1 := by omega
        rw [if_pos h2, if_pos (by omega), this, List.getD_cons_succ]
      · rw [if_neg h2, if_neg (by omega)]
        split
        · rw [Vector.getElem_set_ne]; exact h1
        · rfl

/-! ### The program counter -/

/-- `SetPC`: an accepted value lands, any other is a PC_OVERFLOW (R17). -/
theorem setPC_spec (v : Nat) (s : State) :
    (s.accepts v ∧ setPC v s = .ok { s with pc := BitVec.ofNat 16 (landing v) }) ∨
    (¬ s.accepts v ∧ 0xFFF < v ∧ s.cfg.pcOverflow = .fault ∧ setPC v s = .error ⟨.pcOverflow, BitVec.ofNat 16 v⟩) := by
  unfold setPC State.accepts landing
  by_cases h : v ≤ 0xFFF
  · left; simp [h]
  · cases hp : s.cfg.pcOverflow
    · left; simp [h]
    · right; simp [h]; omega

theorem setPC_of_accepts {v : Nat} (h : s.accepts v) :
    setPC v s = .ok { s with pc := BitVec.ofNat 16 (landing v) } := by
  rcases setPC_spec v s with h' | h'
  · exact h'.2
  · exact absurd h h'.1

theorem setPC_of_not_accepts {v : Nat} (h : ¬ s.accepts v) :
    setPC v s = .error ⟨.pcOverflow, BitVec.ofNat 16 v⟩ := by
  rcases setPC_spec v s with h' | h'
  · exact absurd h'.1 h
  · exact h'.2.2.2

theorem setPC_ok {v : Nat} (h : setPC v s = .ok t) :
    s.accepts v ∧ t = { s with pc := BitVec.ofNat 16 (landing v) } := by
  rcases setPC_spec v s with h' | h'
  · exact ⟨h'.1, by rw [h'.2] at h; exact (Except.ok.inj h).symm⟩
  · rw [h'.2.2.2] at h; cases h

theorem setPC_error {v : Nat} {e : Trap} (h : setPC v s = .error e) :
    ¬ s.accepts v ∧ 0xFFF < v ∧ s.cfg.pcOverflow = .fault ∧ e = ⟨.pcOverflow, BitVec.ofNat 16 v⟩ := by
  rcases setPC_spec v s with h' | h'
  · rw [h'.2] at h; cases h
  · exact ⟨h'.1, h'.2.1, h'.2.2.1, by rw [h'.2.2.2] at h; exact (Except.error.inj h).symm⟩

theorem landing_le (v : Nat) : landing v ≤ 0xFFF := by unfold landing; split <;> omega

theorem landing_of_le {v : Nat} (h : v ≤ 0xFFF) : landing v = v := if_pos h

@[simp] theorem toNat_ofNat_landing (v : Nat) : (BitVec.ofNat 16 (landing v)).toNat = landing v := by
  have := landing_le v
  simp only [BitVec.toNat_ofNat]
  omega

/-- Acceptance depends on the configuration alone. -/
theorem State.accepts_congr {v : Nat} (h : t.cfg = s.cfg) : t.accepts v ↔ s.accepts v := by simp [State.accepts, h]

theorem State.accepts_of_le {v : Nat} (h : v ≤ 0xFFF) : s.accepts v := Or.inl h

theorem State.accepts_mono {v w : Nat} (h : s.accepts w) (hv : v ≤ w) : s.accepts v := by
  rcases h with h | h
  · exact Or.inl (by omega)
  · exact Or.inr h

theorem State.not_accepts_iff {v : Nat} : ¬ s.accepts v ↔ 0xFFF < v ∧ s.cfg.pcOverflow = .fault := by
  unfold State.accepts
  cases s.cfg.pcOverflow <;> simp

/-- `skipIf` is `SetPC` of `pc + 4` or `pc + 2` (R88). -/
theorem skipIf_eq (c : Bool) (s : State) : skipIf c s = setPC (s.pc.toNat + (if c then 4 else 2)) s := by
  cases c <;> rfl

theorem nextPC_eq (s : State) : nextPC s = setPC (s.pc.toNat + 2) s := rfl

/-- An instruction whose last act is an accepted write of `pc` completes (R16, R66). -/
theorem commit_setPC {u : State} {v : Nat} (h : u.accepts v) :
    commit s (setPC v u) = .next { u with pc := BitVec.ofNat 16 (landing v), out := .done } := by
  rw [setPC_of_accepts h, commit_ok]

theorem commit_nextPC {u : State} (h : u.accepts (u.pc.toNat + 2)) :
    commit s (nextPC u) = .next { u with pc := BitVec.ofNat 16 (landing (u.pc.toNat + 2)), out := .done } :=
  commit_setPC h

/-- The same, for a state `u` that keeps the configuration and `pc` of the state at entry. -/
theorem commit_advance {u : State} (hc : u.cfg = s.cfg) (hp : u.pc = s.pc) (h : s.accepts (s.pc.toNat + 2)) :
    commit s (nextPC u) = .next { u with pc := BitVec.ofNat 16 (landing (s.pc.toNat + 2)), out := .done } := by
  rw [commit_nextPC (by rw [hp]; exact (State.accepts_congr hc).2 h), hp]

/-- A register-only instruction whose `pc` advance is accepted completes with its registers (R12, R66). -/
theorem commit_regs {u : State} (hu : u = { s with v := u.v }) (h : s.accepts (s.pc.toNat + 2)) :
    ∃ t, commit s (nextPC u) = .next t ∧ t.v = u.v ∧ s.advancedTo t ∧
      t = { s with v := t.v, pc := t.pc, out := t.out } := by
  rw [commit_advance (u := u) (by rw [hu]) (by rw [hu]) h]
  refine ⟨_, rfl, rfl, ⟨toNat_ofNat_landing _, rfl⟩, ?_⟩
  simp only
  rw [hu]

/-- An instruction whose one write is `V[x] <- b` completes with it. -/
theorem commit_setV (x : Reg) (b : Byte) (h : s.accepts (s.pc.toNat + 2)) :
    ∃ t, commit s (nextPC (s.setV x b)) = .next t ∧ t.getV x = b ∧ s.advancedTo t ∧ s.changedOnlyRegs t [x] := by
  obtain ⟨t, h1, h2, h3, h4⟩ := commit_regs (s := s) (u := s.setV x b) rfl h
  refine ⟨t, h1, by rw [State.getV_congr h2]; simp, h3, fun r hr => ?_, h4⟩
  rw [State.getV_congr h2, State.getV_setV_ne b (by simpa using hr)]

/-- A flag-writing instruction completes with the flag in `VF`, and its result in `V[x]` unless that is `VF` (R113). -/
theorem commit_setResultAndFlag (x : Reg) (b c : Byte) (h : s.accepts (s.pc.toNat + 2)) :
    ∃ t, commit s (nextPC (s.setResultAndFlag x b c)) = .next t ∧ (x ≠ vf → t.getV x = b) ∧ t.getV vf = c ∧
      s.advancedTo t ∧ s.changedOnlyRegs t [x, vf] := by
  obtain ⟨t, h1, h2, h3, h4⟩ := commit_regs (s := s) (u := s.setResultAndFlag x b c) rfl h
  refine ⟨t, h1, fun hx => ?_, ?_, h3, fun r hr => ?_, h4⟩
  · rw [State.getV_congr h2, State.getV_setResultAndFlag]; simp [hx]
  · rw [State.getV_congr h2, State.getV_setResultAndFlag]; simp
  · rw [State.getV_congr h2, State.getV_setResultAndFlag]
    simp only [List.mem_cons, List.not_mem_nil, or_false, not_or] at hr
    simp [hr]

/-- Away from the top of memory an advanced `pc` is two further. -/
theorem State.advancedTo.pc_eq (h : s.advancedTo t) (hp : s.pc.toNat + 2 ≤ 0xFFF) : t.pc.toNat = s.pc.toNat + 2 := by
  rw [h.1, landing_of_le hp]

/-- When `NextPC()` succeeds, `pc + 2` is accepted and lands (R9, R17). -/
theorem nextPC_ok {p : State} (h : nextPC s = .ok p) :
    s.accepts (s.pc.toNat + 2) ∧ p.pc.toNat = landing (s.pc.toNat + 2) := by
  obtain ⟨h1, rfl⟩ := setPC_ok h
  exact ⟨h1, toNat_ofNat_landing _⟩

theorem State.advancedTo.pc_of_nextPC {p : State} (h : s.advancedTo t) (hp : nextPC s = .ok p) : t.pc = p.pc := by
  apply BitVec.eq_of_toNat_eq
  rw [h.1, (nextPC_ok hp).2]

/-- When `NextPC()` raises, an instruction that ends with it raises that and has no effect (R182). -/
theorem commit_nextPC_error {u : State} {e : Trap} (h : nextPC s = .error e) (hc : u.cfg = s.cfg) (hp : u.pc = s.pc) :
    commit s (nextPC u) = .next (s.raise e) := by
  obtain ⟨h1, _, _, rfl⟩ := setPC_error h
  rw [nextPC_eq, hp, setPC_of_not_accepts (fun h' => h1 ((State.accepts_congr hc).1 h')), commit_error]

theorem commit_skipIf {u : State} {c : Bool} (h : u.accepts (u.pc.toNat + (if c then 4 else 2))) :
    commit s (skipIf c u) =
      .next { u with pc := BitVec.ofNat 16 (landing (u.pc.toNat + (if c then 4 else 2))), out := .done } := by
  rw [skipIf_eq, commit_setPC h]

/-- An instruction whose last act is a refused write of `pc` is a PC_OVERFLOW without any effect (R182, R186). -/
theorem commit_setPC_overflow {u : State} {v : Nat} (h : ¬ u.accepts v) :
    commit s (setPC v u) = .next (s.raise ⟨.pcOverflow, BitVec.ofNat 16 v⟩) := by
  rw [setPC_of_not_accepts h, commit_error]

/-! ### The call stack -/

theorem push_of_lt (v : Word) (h : s.sp.val < 16) : push v s =
    .ok { s with stack := s.stack.set s.sp.val v h, sp := ⟨s.sp.val + 1, by omega⟩ } := dif_pos h

theorem push_full (v : Word) (h : ¬ s.sp.val < 16) : push v s = .error ⟨.stackOverflow, s.pc⟩ := dif_neg h

theorem pop_of_pos (h : 0 < s.sp.val) : pop s =
    .ok (s.stack[s.sp.val - 1], { s with sp := ⟨s.sp.val - 1, by omega⟩ }) := if_pos h

theorem pop_empty (h : ¬ 0 < s.sp.val) : pop s = .error ⟨.stackUnderflow, s.pc⟩ := if_neg h

/-! ### Accesses -/

theorem loadBytes_of_range {a n : Nat} (h : n = 0 ∨ a + n ≤ 0x1000) :
    loadBytes a n s = .ok (s.mem.readBytes s.cfg a n) := by
  simp [loadBytes, checkRange, inRange, h]

theorem loadBytes_out {a n : Nat} (h : ¬ (n = 0 ∨ a + n ≤ 0x1000)) :
    loadBytes a n s = .error ⟨.memRangeRead, BitVec.ofNat 16 (max a 0x1000)⟩ := by
  simp only [loadBytes, checkRange, inRange, h, decide_false]; rfl

theorem storeBytes_of_range {a : Nat} {bs : List Byte} (h : bs.length = 0 ∨ a + bs.length ≤ 0x1000) :
    storeBytes a bs s = .ok { s with mem := s.mem.writeBytes s.cfg a bs } := by
  simp only [storeBytes, checkRange, inRange, h, decide_true]; rfl

theorem storeBytes_out {a : Nat} {bs : List Byte} (h : ¬ (bs.length = 0 ∨ a + bs.length ≤ 0x1000)) :
    storeBytes a bs s = .error ⟨.memRangeWrite, BitVec.ofNat 16 (max a 0x1000)⟩ := by
  simp only [storeBytes, checkRange, inRange, h, decide_false]; rfl

theorem fetch_of_range (h : s.pc.toNat + 1 ≤ 0xFFF) : fetch s = .ok s.nextWord := if_pos h

theorem fetch_out (h : ¬ s.pc.toNat + 1 ≤ 0xFFF) : fetch s = .error ⟨.memRangeFetch, s.pc⟩ := if_neg h

/-! ### Operands and flags -/

@[simp] theorem toNat_zext12 (nnn : BitVec 12) : (zext12 nnn).toNat = nnn.toNat := by
  have := nnn.isLt
  simp only [zext12, BitVec.toNat_setWidth]
  omega

theorem State.toNat_lowNibble (s : State) (x : Reg) : (s.lowNibble x).toNat = (s.getV x).toNat % 16 := by
  simp [State.lowNibble]

@[simp] theorem length_decimalDigits (b : Byte) : (decimalDigits b).length = 3 := rfl

@[simp] theorem State.length_regsUpTo (s : State) (x : Reg) : (s.regsUpTo x).length = x.val + 1 := by
  have := x.isLt
  simp only [State.regsUpTo, List.length_take, Vector.length_toList]
  omega

theorem State.getD_regsUpTo {x r : Reg} (s : State) (h : r ≤ x) : (s.regsUpTo x).getD r.val 0 = s.getV r := by
  have h1 : r.val < x.val + 1 := by have : r.val ≤ x.val := h; omega
  have h2 := r.isLt
  simp [State.regsUpTo, State.getV, List.getD, h1]

theorem toNat_bool (c : Bool) : (bool c).toNat = if c then 1 else 0 := by cases c <;> rfl

theorem toNat_carryFlag (a b : Byte) : (carryFlag a b).toNat = if a.toNat + b.toNat > 255 then 1 else 0 := by
  simp only [carryFlag, toNat_bool, decide_eq_true_eq]

theorem toNat_notBorrowFlag (a b : Byte) : (notBorrowFlag a b).toNat = if a.toNat ≥ b.toNat then 1 else 0 := by
  simp only [notBorrowFlag, toNat_bool, decide_eq_true_eq, ge_iff_le]

theorem toNat_shrFlag (a : Byte) : (shrFlag a).toNat = a.toNat % 2 := by
  revert a; decide

theorem toNat_shlFlag (a : Byte) : (shlFlag a).toNat = a.toNat / 128 := by
  revert a; decide

end Sys2Proof.Machine
end

