-- ==== Sys2Proof/Laws/Display.lean ====
section
/-!
SUPPORT. The laws of the sprite collision detector (R140 to R146): a sprite is the list of the pixels its 1 bits land on;
drawing flips each once per occurrence, and collides, when they are distinct, exactly when one of them was lit.
-/

namespace Sys2Proof.Machine

variable {cfg : Config} {fb : FrameBuffer} {w h x y r c : Nat}

/-! ### One pixel -/

theorem FrameBuffer.wf_blank (cfg : Config) : FrameBuffer.wf cfg (blankFB cfg) := by
  refine ⟨by simp [blankFB], fun row hrow => ?_⟩
  rw [(List.mem_replicate.1 hrow).2, List.length_replicate]

theorem pixelAt_blank (cfg : Config) (r c : Nat) : pixelAt (blankFB cfg) r c = false := by
  unfold pixelAt blankFB
  rw [List.getElem?_replicate]
  split
  · rw [Option.bind_some, List.getElem?_replicate]
    split <;> rfl
  · rfl

theorem FrameBuffer.wf_flip (hf : FrameBuffer.wf cfg fb) (r c : Nat) : FrameBuffer.wf cfg (flipPixel fb r c) := by
  refine ⟨by simp [flipPixel, hf.1], fun row hrow => ?_⟩
  obtain ⟨k, hk, rfl⟩ := List.getElem_of_mem hrow
  simp only [flipPixel, List.getElem_modify]
  split
  · rw [List.length_modify]; exact hf.2 _ (List.getElem_mem _)
  · exact hf.2 _ (List.getElem_mem _)

theorem pixelAt_eq_getElem (hr : r < fb.length) (hc : c < fb[r].length) : pixelAt fb r c = fb[r][c] := by
  simp [pixelAt, hr, hc]

/-- A flip of a pixel of the display changes that pixel and no other. -/
theorem pixelAt_flip (hf : FrameBuffer.wf cfg fb) {r' c' : Nat} (hr : r' < cfg.displayH) (hc : c' < cfg.displayW) :
    pixelAt (flipPixel fb r c) r' c' = (pixelAt fb r' c' ^^ decide ((r, c) = (r', c'))) := by
  have hr' : r' < fb.length := by rw [hf.1]; exact hr
  have hc' : c' < fb[r'].length := by rw [hf.2 _ (List.getElem_mem _)]; exact hc
  have hf' := FrameBuffer.wf_flip hf r c
  have hr2 : r' < (flipPixel fb r c).length := by rw [hf'.1]; exact hr
  have hc2 : c' < (flipPixel fb r c)[r'].length := by rw [hf'.2 _ (List.getElem_mem _)]; exact hc
  rw [pixelAt_eq_getElem hr' hc', pixelAt_eq_getElem hr2 hc2]
  simp only [flipPixel, List.getElem_modify, Prod.mk.injEq]
  by_cases h1 : r = r'
  · simp only [h1, if_true, List.getElem_modify, true_and]
    by_cases h2 : c = c' <;> simp [h2]
  · simp [h1]

/-- Two arrays of the same shape with the same pixels are equal. -/
theorem FrameBuffer.ext_of_pixels {fb' : FrameBuffer} (hf : FrameBuffer.wf cfg fb) (hf' : FrameBuffer.wf cfg fb')
    (h : ∀ r c, r < cfg.displayH → c < cfg.displayW → pixelAt fb r c = pixelAt fb' r c) : fb = fb' := by
  apply List.ext_getElem (by rw [hf.1, hf'.1])
  intro r h1 h2
  have l1 := hf.2 _ (List.getElem_mem h1)
  have l2 := hf'.2 _ (List.getElem_mem h2)
  apply List.ext_getElem (by rw [l1, l2])
  intro c h3 h4
  rw [← pixelAt_eq_getElem h1 h3, ← pixelAt_eq_getElem h2 h4]
  exact h r c (by rw [← hf.1]; exact h1) (by rw [← l1]; exact h3)

/-! ### A list of pixels -/

/-- Draw the listed pixels one after another (R142). -/
def drawPixels (ps : List (Nat × Nat)) (acc : Bool × FrameBuffer) : Bool × FrameBuffer :=
  ps.foldl (fun acc p => drawPixel p.1 p.2 acc) acc

theorem drawPixels_cons (p : Nat × Nat) (ps : List (Nat × Nat)) (acc : Bool × FrameBuffer) :
    drawPixels (p :: ps) acc = drawPixels ps (drawPixel p.1 p.2 acc) := rfl

theorem drawPixels_append (ps qs : List (Nat × Nat)) (acc : Bool × FrameBuffer) :
    drawPixels (ps ++ qs) acc = drawPixels qs (drawPixels ps acc) := List.foldl_append

/-- A collision so far only adds to those to come. -/
theorem drawPixels_carry (ps : List (Nat × Nat)) : ∀ (b : Bool) (fb : FrameBuffer),
    drawPixels ps (b, fb) = (b || (drawPixels ps (false, fb)).1, (drawPixels ps (false, fb)).2) := by
  induction ps with
  | nil => intro b fb; simp [drawPixels]
  | cons p ps ih =>
    intro b fb
    simp only [drawPixels_cons, drawPixel]
    rw [ih (b || _), ih (false || _)]
    simp [Bool.or_assoc]

theorem FrameBuffer.wf_drawPixels (ps : List (Nat × Nat)) : ∀ (b : Bool) (fb : FrameBuffer),
    FrameBuffer.wf cfg fb → FrameBuffer.wf cfg (drawPixels ps (b, fb)).2 := by
  induction ps with
  | nil => intro b fb hf; exact hf
  | cons p ps ih => intro b fb hf; exact ih _ _ (FrameBuffer.wf_flip hf _ _)

/-- Every pixel flips once per occurrence. -/
theorem pixelAt_drawPixels {r c : Nat} (hr : r < cfg.displayH) (hc : c < cfg.displayW) (ps : List (Nat × Nat)) :
    ∀ (b : Bool) (fb : FrameBuffer), FrameBuffer.wf cfg fb →
      pixelAt (drawPixels ps (b, fb)).2 r c = (pixelAt fb r c ^^ decide (ps.count (r, c) % 2 = 1)) := by
  induction ps with
  | nil => intro b fb _; simp [drawPixels]
  | cons p ps ih =>
    intro b fb hf
    rw [drawPixels_cons, drawPixel, ih _ _ (FrameBuffer.wf_flip hf _ _), pixelAt_flip hf hr hc, List.count_cons]
    by_cases h : p = (r, c)
    · subst h
      simp only [decide_true, Bool.xor_assoc, beq_self_eq_true, if_true]
      congr 1
      rcases Nat.mod_two_eq_zero_or_one (ps.count (r, c)) with h | h <;> simp [h, Nat.add_mod]
    · simp [h]

/-- Distinct pixels of the display collide exactly when one of them was lit. -/
theorem drawPixels_collision (ps : List (Nat × Nat)) : ∀ (fb : FrameBuffer), FrameBuffer.wf cfg fb → ps.Nodup →
    (∀ p ∈ ps, p.1 < cfg.displayH ∧ p.2 < cfg.displayW) →
    ((drawPixels ps (false, fb)).1 = true ↔ ∃ p ∈ ps, pixelAt fb p.1 p.2 = true) := by
  induction ps with
  | nil => intro fb _ _ _; simp [drawPixels]
  | cons p ps ih =>
    intro fb hf hn hp
    rw [List.nodup_cons] at hn
    rw [drawPixels_cons, drawPixel, drawPixels_carry]
    have ih := ih _ (FrameBuffer.wf_flip hf p.1 p.2) hn.2 (fun q hq => hp q (by simp [hq]))
    have hq : ∀ q ∈ ps, pixelAt (flipPixel fb p.1 p.2) q.1 q.2 = pixelAt fb q.1 q.2 := by
      intro q hq
      have := hp q (by simp [hq])
      have hne : (p.1, p.2) ≠ (q.1, q.2) := fun h => hn.1 (by rw [show p = q from h]; exact hq)
      rw [pixelAt_flip hf this.1 this.2, decide_eq_false hne, Bool.xor_false]
    simp only [Bool.false_or, Bool.or_eq_true, ih, List.mem_cons, exists_eq_or_imp]
    constructor
    · rintro (h | ⟨q, h1, h2⟩)
      · exact Or.inl h
      · exact Or.inr ⟨q, h1, by rw [← hq q h1]; exact h2⟩
    · rintro (h | ⟨q, h1, h2⟩)
      · exact Or.inl h
      · exact Or.inr ⟨q, h1, by rw [hq q h1]; exact h2⟩

/-! ### The pixels of a sprite -/

/-- The pixels that the 1 bits of a sprite row land on (R142). -/
def rowPixels (w h : Nat) (b : Byte) (x y : Nat) : List (Nat × Nat) :=
  ((List.range 8).filter (fun j => b.getLsbD (7 - j))).map (fun j => (y % h, (x + j) % w))

/-- The pixels that the 1 bits of a sprite land on, in drawing order (R144). -/
def spritePixels (w h x : Nat) : Nat → List Byte → List (Nat × Nat)
  | _, [] => []
  | y, b :: bs => rowPixels w h b x y ++ spritePixels w h x (y + 1) bs

theorem drawSpriteRow_eq (w h : Nat) (b : Byte) (x y : Nat) (fb : FrameBuffer) :
    drawSpriteRow w h b x y fb = drawPixels (rowPixels w h b x y) (false, fb) := by
  unfold drawSpriteRow drawPixels rowPixels
  rw [List.foldl_map, List.foldl_filter]
  rfl

theorem drawRows_eq (w h x : Nat) (bs : List Byte) : ∀ (y : Nat) (acc : Bool × FrameBuffer),
    drawRows w h x y bs acc = drawPixels (spritePixels w h x y bs) acc := by
  induction bs with
  | nil => intro y acc; rfl
  | cons b bs ih =>
    intro y acc
    obtain ⟨c, fb⟩ := acc
    rw [drawRows, ih, spritePixels, drawPixels_append, drawPixels_carry _ c fb, drawSpriteRow_eq]

/-- Drawing a sprite is drawing its pixels. -/
theorem drawSprite_eq (cfg : Config) (rows : List Byte) (x y : Nat) (fb : FrameBuffer) :
    drawSprite cfg rows x y fb = drawPixels (spritePixels cfg.displayW cfg.displayH x y rows) (false, fb) :=
  drawRows_eq _ _ _ _ _ _

theorem FrameBuffer.wf_drawSprite (hf : FrameBuffer.wf cfg fb) (rows : List Byte) (x y : Nat) :
    FrameBuffer.wf cfg (drawSprite cfg rows x y fb).2 := by
  rw [drawSprite_eq]; exact FrameBuffer.wf_drawPixels _ _ _ hf

theorem mem_rowPixels {b : Byte} {p : Nat × Nat} :
    p ∈ rowPixels w h b x y ↔ ∃ j, j < 8 ∧ b.getLsbD (7 - j) = true ∧ p = (y % h, (x + j) % w) := by
  simp only [rowPixels, List.mem_map, List.mem_filter, List.mem_range, and_assoc, eq_comm]

theorem mem_spritePixels {p : Nat × Nat} (bs : List Byte) : ∀ {y : Nat}, p ∈ spritePixels w h x y bs ↔
    ∃ k j, k < bs.length ∧ j < 8 ∧ (bs.getD k 0).getLsbD (7 - j) = true ∧ p = ((y + k) % h, (x + j) % w) := by
  induction bs with
  | nil => intro y; simp [spritePixels]
  | cons b bs ih =>
    intro y
    rw [spritePixels, List.mem_append, mem_rowPixels, ih]
    constructor
    · rintro (⟨j, h1, h2, h3⟩ | ⟨k, j, h0, h1, h2, h3⟩)
      · exact ⟨0, j, by simp, h1, by simpa using h2, by simpa using h3⟩
      · exact ⟨k + 1, j, by simp only [List.length_cons]; omega, h1, by rw [List.getD_cons_succ]; exact h2,
          by rw [h3, show y + 1 + k = y + (k + 1) by omega]⟩
    · rintro ⟨k, j, h0, h1, h2, h3⟩
      cases k with
      | zero => exact Or.inl ⟨j, h1, by simpa using h2, by simpa using h3⟩
      | succ k =>
        refine Or.inr ⟨k, j, by simp only [List.length_cons] at h0; omega, h1, ?_,
          by rw [h3, show y + 1 + k = y + (k + 1) by omega]⟩
        rw [List.getD_cons_succ] at h2; exact h2

theorem spritePixels_inside (hw : 0 < w) (hh : 0 < h) {bs : List Byte} {p : Nat × Nat}
    (hp : p ∈ spritePixels w h x y bs) : p.1 < h ∧ p.2 < w := by
  obtain ⟨k, j, _, _, _, rfl⟩ := (mem_spritePixels bs).1 hp
  exact ⟨Nat.mod_lt _ hh, Nat.mod_lt _ hw⟩

/-- Two offsets less than `m` apart that agree modulo `m` are equal. -/
theorem eq_of_add_mod_eq {a i j m : Nat} (hi : i < m) (hj : j < m) (he : (a + i) % m = (a + j) % m) : i = j := by
  have h : i ≡ j [MOD m] := Nat.ModEq.add_left_cancel' a he
  rwa [Nat.ModEq, Nat.mod_eq_of_lt hi, Nat.mod_eq_of_lt hj] at h

theorem nodup_rowPixels (hw : 8 ≤ w) (b : Byte) : (rowPixels w h b x y).Nodup := by
  refine List.Nodup.map_on ?_ (List.nodup_range.filter _)
  intro i hi j hj he
  simp only [List.mem_filter, List.mem_range] at hi hj
  exact eq_of_add_mod_eq (by omega) (by omega) (Prod.ext_iff.1 he).2

/-- On a display at least 8 wide and as high as the sprite, no two bits of the sprite share a pixel. -/
theorem nodup_spritePixels (hw : 8 ≤ w) (bs : List Byte) : ∀ {y : Nat}, bs.length ≤ h →
    (spritePixels w h x y bs).Nodup := by
  induction bs with
  | nil => intro y _; simp [spritePixels]
  | cons b bs ih =>
    intro y hl
    simp only [List.length_cons] at hl
    refine List.Nodup.append (nodup_rowPixels hw b) (ih (by omega)) ?_
    intro p hp hq
    obtain ⟨j, _, _, rfl⟩ := mem_rowPixels.1 hp
    obtain ⟨k, j', hk, _, _, he⟩ := (mem_spritePixels bs).1 hq
    have h1 := (Prod.ext_iff.1 he).1
    rw [show y + 1 + k = y + (k + 1) by omega] at h1
    have := eq_of_add_mod_eq (a := y) (i := 0) (j := k + 1) (m := h) (by omega) (by omega) h1
    omega

/-- `spriteHits` counts the occurrences of a pixel. -/
theorem count_rowPixels (b : Byte) : (rowPixels w h b x y).count (r, c) =
    (List.range 8).countP fun j => b.getLsbD (7 - j) && decide (y % h = r) && decide ((x + j) % w = c) := by
  rw [List.count, rowPixels, List.countP_map, List.countP_filter]
  congr 1
  funext j
  rw [Bool.eq_iff_iff]
  simp [Prod.ext_iff]
  tauto

theorem count_spritePixels (bs : List Byte) : ∀ {y : Nat},
    (spritePixels cfg.displayW cfg.displayH x y bs).count (r, c) = spriteHits cfg bs x y r c := by
  induction bs with
  | nil => intro y; simp [spritePixels, spriteHits]
  | cons b bs ih =>
    intro y
    rw [spritePixels, List.count_append, count_rowPixels, ih]
    simp only [spriteHits, List.length_cons, List.range_succ_eq_map, List.map_cons, List.sum_cons, List.map_map]
    congr 1
    congr 1
    apply List.map_congr_left
    intro k _
    simp only [Function.comp, Nat.succ_eq_add_one, List.getD_cons_succ]
    congr 1
    funext j
    rw [show y + 1 + k = y + (k + 1) by omega]

/-! ### Dxyn -/

/-- Dxyn whose sprite lies in memory completes with the drawn pixels and the collision in `VF`, and nothing else (R144). -/
theorem drw_completes {s : State} {x y : Reg} {n : Nat} {rows : List Byte} (hn : n = 0 ∨ s.i.toNat + n ≤ 0x1000)
    (ha : s.accepts (s.pc.toNat + 2)) (hr : rows = s.mem.readBytes s.cfg s.i.toNat n) :
    ∃ t, exec (.drw x y n) s = .next t ∧ t.fb = (drawSprite s.cfg rows (s.getV x).toNat (s.getV y).toNat s.fb).2 ∧
      (t.getV vf).toNat = (if (drawSprite s.cfg rows (s.getV x).toNat (s.getV y).toNat s.fb).1 = true then 1 else 0) ∧
      (∀ r, r ≠ vf → t.getV r = s.getV r) ∧ s.advancedTo t ∧
      t = { s with v := t.v, fb := t.fb, pc := t.pc, out := .done } := by
  subst hr
  rw [exec_drw, execDrw, loadBytes_of_range hn]
  simp only
  rw [commit_advance ?_ ?_ ha] <;> [skip; rfl; rfl]
  refine ⟨_, rfl, rfl, ?_, fun r h => State.getV_setV_ne _ h, ⟨toNat_ofNat_landing _, rfl⟩, rfl⟩
  rw [← toNat_bool]
  exact congrArg BitVec.toNat (State.getV_setV_self _ vf _)

end Sys2Proof.Machine
end

