-- ==== Sys2Proof/Laws/Step.lean ====
section
/-!
SUPPORT. What one step of the model is, case by case (R6, R66): which operation it performs, and, for an instruction
step, which of fetch fault, instruction, unknown opcode, `Waiting` and `StillFaulted` it is.
-/

namespace Sys2Proof.Machine

variable {s t : State}

/-! ### Which operation a step performs -/

theorem step_of_stepsNext (h : s.stepsNext = true) : step s = endOperation (stepOp s) := by
  unfold State.stepsNext at h
  unfold step nextOperation
  split at h <;> simp_all [perform]

theorem step_of_pending {op : Operation} {rest : List Operation} (h : s.pending = op :: rest) :
    step s = endOperation (perform op s) := by
  unfold step nextOperation
  rw [h]

theorem stepsNext_of_nil (h : s.pending = []) : s.stepsNext = true := by simp [State.stepsNext, h]

theorem stepsNext_of_step {keys : BitVec 16} {rnd : Byte} {rest : List Operation}
    (h : s.pending = .step keys rnd :: rest) : s.stepsNext = true := by simp [State.stepsNext, h]

/-- A step either performs an instruction step, or the pending operation at the head of the queue. -/
theorem step_cases (s : State) :
    (s.stepsNext = true ∧ step s = endOperation (stepOp s)) ∨
    (∃ op rest, s.stepsNext = false ∧ s.pending = op :: rest ∧ step s = endOperation (perform op s)) := by
  cases h : s.stepsNext with
  | true => exact Or.inl ⟨rfl, step_of_stepsNext h⟩
  | false =>
    cases hp : s.pending with
    | nil => simp [State.stepsNext, hp] at h
    | cons op rest => exact Or.inr ⟨op, rest, rfl, rfl, step_of_pending hp⟩

/-! ### The step cycle -/

theorem stepOp_running (h : s.mode = .running) : stepOp s = runInstruction s := by rw [stepOp, h]
theorem stepOp_awaitKey (h : s.mode = .awaitKey) : stepOp s = .next { s with out := .waiting } := by
  unfold stepOp; split <;> simp_all
theorem stepOp_faulted (h : s.mode = .faulted) : stepOp s = .next { s with out := .stillFaulted s.fcause s.finfo } := by
  unfold stepOp; split <;> simp_all

theorem runInstruction_out (h : ¬ s.pc.toNat + 1 ≤ 0xFFF) :
    runInstruction s = .next (s.raise ⟨.memRangeFetch, s.pc⟩) := by
  simp only [runInstruction, fetch_out h]

theorem runInstruction_known {i : Instr} (h : s.pc.toNat + 1 ≤ 0xFFF) (hd : decode s.nextWord = .ok i) :
    runInstruction s = exec i s := by
  simp only [runInstruction, fetch_of_range h, hd]

theorem runInstruction_unknown {u : Unknown} (h : s.pc.toNat + 1 ≤ 0xFFF) (hd : decode s.nextWord = .error u) :
    runInstruction s = execUnknown s.nextWord s := by
  simp only [runInstruction, fetch_of_range h, hd]

/-- `UNKNOWN(op)`: the no-op with its diagnostic, or a PC_OVERFLOW without one (R65, R189). -/
theorem execUnknown_spec (op : Word) (s : State) :
    (s.accepts (s.pc.toNat + 2) ∧ execUnknown op s =
      .next { s with pc := BitVec.ofNat 16 (landing (s.pc.toNat + 2)), out := .diagnostic s.pc op }) ∨
    (¬ s.accepts (s.pc.toNat + 2) ∧ execUnknown op s =
      .next (s.raise ⟨.pcOverflow, BitVec.ofNat 16 (s.pc.toNat + 2)⟩)) := by
  unfold execUnknown
  rw [nextPC_eq]
  rcases setPC_spec (s.pc.toNat + 2) s with h | h
  · exact Or.inl ⟨h.1, by rw [h.2]; rfl⟩
  · exact Or.inr ⟨h.1, by rw [h.2.2.2]; rfl⟩

theorem mode_cases (m : Mode) : m = .faulted ∨ m = .awaitKey ∨ m = .running := by cases m <;> simp

/-- Everything an instruction step can do (R66). -/
theorem stepOp_cases (s : State) :
    (s.mode = .faulted ∧ stepOp s = .next { s with out := .stillFaulted s.fcause s.finfo }) ∨
    (s.mode = .awaitKey ∧ stepOp s = .next { s with out := .waiting }) ∨
    (s.mode = .running ∧ ¬ s.pc.toNat + 1 ≤ 0xFFF ∧ stepOp s = .next (s.raise ⟨.memRangeFetch, s.pc⟩)) ∨
    (∃ i, s.mode = .running ∧ s.pc.toNat + 1 ≤ 0xFFF ∧ decode s.nextWord = .ok i ∧ stepOp s = exec i s) ∨
    (∃ u, s.mode = .running ∧ s.pc.toNat + 1 ≤ 0xFFF ∧ decode s.nextWord = .error u ∧
      stepOp s = execUnknown s.nextWord s) := by
  rcases mode_cases s.mode with h | h | h
  · exact Or.inl ⟨h, stepOp_faulted h⟩
  · exact Or.inr (Or.inl ⟨h, stepOp_awaitKey h⟩)
  · rw [stepOp_running h]
    by_cases hr : s.pc.toNat + 1 ≤ 0xFFF
    · cases hd : decode s.nextWord with
      | ok i => exact Or.inr (Or.inr (Or.inr (Or.inl ⟨i, h, hr, rfl, runInstruction_known hr hd⟩)))
      | error u => exact Or.inr (Or.inr (Or.inr (Or.inr ⟨u, h, hr, rfl, runInstruction_unknown hr hd⟩)))
    · exact Or.inr (Or.inr (Or.inl ⟨h, hr, runInstruction_out hr⟩))

theorem endOperation_next_iff {o : Host.Outcome State Fault Refusal} :
    endOperation o = .next t ↔ ∃ u, o = .next u ∧ t = u.endOp := by
  cases o <;> simp [endOperation, eq_comm]

/-! ### Placing a word -/

theorem placeWord_pc_le (op : Word) (s : State) : (placeWord op s).pc.toNat + 1 ≤ 0xFFF := by
  unfold placeWord
  simp only
  split
  · assumption
  · decide

theorem placeWord_stepsNext (op : Word) (s : State) : (placeWord op s).stepsNext = true := by
  cases h : s.stepsNext with
  | true =>
    have : (placeWord op s).pending = s.pending := by simp [placeWord, h]
    unfold State.stepsNext at h ⊢
    rw [this]; exact h
  | false => exact stepsNext_of_nil (by simp [placeWord, h])

theorem placeWord_nextWord (op : Word) (s : State) : (placeWord op s).nextWord = op := by
  have hm : ∀ a, (placeWord op s).byteAt a =
      (s.mem.writeBytes s.cfg (placeWord op s).pc.toNat (bytesOfWord op)).read s.cfg a := fun _ => rfl
  have h0 := Memory.read_writeBytes_inside (cfg := s.cfg) (m := s.mem) (a := (placeWord op s).pc.toNat)
    (bs := bytesOfWord op) (k := 0) (by simp [bytesOfWord])
  have h1 := Memory.read_writeBytes_inside (cfg := s.cfg) (m := s.mem) (a := (placeWord op s).pc.toNat)
    (bs := bytesOfWord op) (k := 1) (by simp [bytesOfWord])
  rw [Nat.add_zero] at h0
  unfold State.nextWord
  rw [hm, hm, h0, h1]
  exact wordOfBytes_bytes op

/-! ### What an operation of the embedding does -/

/-- Everything an instruction step can answer (R66): outside `RUNNING` only the report changes; otherwise a fetch fault, an
instruction, or the no-op of an unknown opcode. -/
theorem stepOp_next_cases {s t : State} (h : stepOp s = .next t) :
    (s.mode ≠ .running ∧ ∃ r, t = { s with out := r }) ∨
    (s.mode = .running ∧ ¬ s.pc.toNat + 1 ≤ 0xFFF ∧ t = s.raise ⟨.memRangeFetch, s.pc⟩) ∨
    (∃ i, s.mode = .running ∧ s.pc.toNat + 1 ≤ 0xFFF ∧ decode s.nextWord = .ok i ∧ exec i s = .next t) ∨
    (∃ u, s.mode = .running ∧ s.pc.toNat + 1 ≤ 0xFFF ∧ decode s.nextWord = .error u ∧
      ((s.accepts (s.pc.toNat + 2) ∧ t = { s with pc := BitVec.ofNat 16 (landing (s.pc.toNat + 2)), out := .diagnostic s.pc s.nextWord }) ∨
       (¬ s.accepts (s.pc.toNat + 2) ∧ t = s.raise ⟨.pcOverflow, BitVec.ofNat 16 (s.pc.toNat + 2)⟩))) := by
  rcases stepOp_cases s with ⟨hm, he⟩ | ⟨hm, he⟩ | ⟨hm, hp, he⟩ | ⟨i, hm, hp, hd, he⟩ | ⟨u, hm, hp, hd, he⟩
  · rw [he] at h; exact Or.inl ⟨by rw [hm]; decide, _, (Host.Outcome.next.inj h).symm⟩
  · rw [he] at h; exact Or.inl ⟨by rw [hm]; decide, _, (Host.Outcome.next.inj h).symm⟩
  · rw [he] at h; exact Or.inr (Or.inl ⟨hm, hp, (Host.Outcome.next.inj h).symm⟩)
  · exact Or.inr (Or.inr (Or.inl ⟨i, hm, hp, hd, he ▸ h⟩))
  · refine Or.inr (Or.inr (Or.inr ⟨u, hm, hp, hd, ?_⟩))
    rcases execUnknown_spec s.nextWord s with ⟨ha, hu⟩ | ⟨ha, hu⟩
    · rw [he, hu] at h; exact Or.inl ⟨ha, (Host.Outcome.next.inj h).symm⟩
    · rw [he, hu] at h; exact Or.inr ⟨ha, (Host.Outcome.next.inj h).symm⟩

/-- Everything one step of the model can answer, by operation (R6). -/
theorem step_next_cases {s t : State} (h : step s = .next t) :
    (s.stepsNext = true ∧ ∃ u, stepOp s = .next u ∧ t = u.endOp) ∨
    (∃ cfg rest, s.pending = .powerOn cfg :: rest ∧ cfg.wf ∧ t = (powerOnOp cfg s).endOp) ∨
    (∃ rest, s.pending = .reset :: rest ∧ t = (resetOp s).endOp) ∨
    (∃ bytes rest, s.pending = .loadProgram bytes :: rest ∧ t = (loadProgramOp bytes s).endOp) ∨
    (∃ rest, s.pending = .decayTimers :: rest ∧ t = (decayTimersOp s).endOp) ∨
    (∃ k rest, s.pending = .keyDown k :: rest ∧ t = (keyDownOp k s).endOp) := by
  rcases step_cases s with ⟨hn, he⟩ | ⟨op, rest, hn, hp, he⟩
  · rw [he] at h; exact Or.inl ⟨hn, endOperation_next_iff.1 h⟩
  · rw [he] at h
    obtain ⟨u, hu, rfl⟩ := endOperation_next_iff.1 h
    cases op
    case step => simp [State.stepsNext, hp] at hn
    case powerOn cfg =>
      simp only [perform] at hu
      split at hu
      · rename_i hc; exact Or.inr (Or.inl ⟨cfg, rest, hp, hc, by rw [← Host.Outcome.next.inj hu]⟩)
      · cases hu
    case reset => exact Or.inr (Or.inr (Or.inl ⟨rest, hp, by rw [← Host.Outcome.next.inj hu]⟩))
    case loadProgram b => exact Or.inr (Or.inr (Or.inr (Or.inl ⟨b, rest, hp, by rw [← Host.Outcome.next.inj hu]⟩)))
    case decayTimers => exact Or.inr (Or.inr (Or.inr (Or.inr (Or.inl ⟨rest, hp, by rw [← Host.Outcome.next.inj hu]⟩))))
    case keyDown k => exact Or.inr (Or.inr (Or.inr (Or.inr (Or.inr ⟨k, rest, hp, by rw [← Host.Outcome.next.inj hu]⟩))))

/-- `loadProgram` (R212, R187). -/
theorem loadProgramOp_cases (b : List Byte) (s : State) :
  (b.length ≤ 3584 ∧ loadProgramOp b s = { s with mem := s.mem.writeBytes s.cfg 0x200 b, out := .loaded }) ∨
  (¬ b.length ≤ 3584 ∧ loadProgramOp b s = { s with out := .imageTooLarge }) := by
  by_cases h : b.length ≤ 3584
  · exact Or.inl ⟨h, if_pos h⟩
  · exact Or.inr ⟨h, if_neg h⟩

/-- `keyDown` (R168). -/
theorem keyDownOp_cases (k : BitVec 4) (s : State) :
  (s.mode = .awaitKey ∧ keyDownOp k s = { s.setV s.kreg (k.setWidth 8) with mode := .running, out := .silent }) ∨
  (s.mode ≠ .awaitKey ∧ keyDownOp k s = { s with out := .silent }) := by
  unfold keyDownOp; split <;> simp_all

/-- A tick lowers a timer by one and stops at 0 (R173). -/
theorem toNat_decay (b : Byte) : (decay b).toNat = b.toNat - 1 := by revert b; decide

/-! ### Runs -/

theorem run_succ (M : Host.Core) (n : Nat) (s : M.State) : M.run (n + 1) s =
    match M.step s with
    | .next s' => M.run n s'
    | .fault r => .fault r
    | .refused r => .refused r := rfl

theorem run_next {s u : State} (h : step s = .next u) (n : Nat) :
    Host.Core.run Sys2Proof.core (n + 1) s = Host.Core.run Sys2Proof.core n u := by
  refine (run_succ Sys2Proof.core n s).trans ?_
  have h' : Sys2Proof.core.step s = .next u := h
  rw [h']

end Sys2Proof.Machine
end

