-- ==== Sys2Proof/Laws/Exec.lean ====
section
/-!
SUPPORT. Everything an instruction can do, said once for all 34 (`exec_eq`): it traps and nothing else changes, or it has
its writes, its `pc` write is accepted and it is done, or that write is refused and nothing else changes. Frames,
invariants and mode rules follow from it without unfolding a meaning again.
-/

namespace Sys2Proof

open Machine

/-- The fault of an instruction's own operation, in every state (R181): as `Instr.ownFault`, with the first address beyond
0xFFF whatever `I` is. -/
def Instr.trap (i : Instr) (s : State) : Option Trap :=
  match i with
  | .call _ => if s.sp.val < 16 then none else some ⟨.stackOverflow, s.pc⟩
  | .ret => if 0 < s.sp.val then none else some ⟨.stackUnderflow, s.pc⟩
  | .drw _ _ n =>
    if n = 0 ∨ s.i.toNat + n ≤ 0x1000 then none else some ⟨.memRangeRead, BitVec.ofNat 16 (max s.i.toNat 0x1000)⟩
  | .ldRegs x =>
    if s.i.toNat + (x.val + 1) ≤ 0x1000 then none else some ⟨.memRangeRead, BitVec.ofNat 16 (max s.i.toNat 0x1000)⟩
  | .stRegs x =>
    if s.i.toNat + (x.val + 1) ≤ 0x1000 then none else some ⟨.memRangeWrite, BitVec.ofNat 16 (max s.i.toNat 0x1000)⟩
  | .ldB _ =>
    if s.i.toNat + 3 ≤ 0x1000 then none else some ⟨.memRangeWrite, BitVec.ofNat 16 (max s.i.toNat 0x1000)⟩
  | _ => none

/-- The drawing of Dxyn from the state at entry. -/
def Machine.State.drawn (s : State) (x y : Reg) (n : Nat) : Bool × FrameBuffer :=
  drawSprite s.cfg (s.mem.readBytes s.cfg s.i.toNat n) (s.getV x).toNat (s.getV y).toNat s.fb

/-- The writes of an instruction other than `pc`, on a state in which it does not trap. -/
def Instr.writes (i : Instr) (s : State) : State :=
  match i with
  | .cls => { s with fb := blankFB s.cfg }
  | .ret => { s with sp := ⟨s.sp.val - 1, by omega⟩ }
  | .call _ =>
    if h : s.sp.val < 16 then
      { s with stack := s.stack.set s.sp.val (s.pc + 2) h, sp := ⟨s.sp.val + 1, by omega⟩ }
    else s
  | .jp _ | .seByte _ _ | .sneByte _ _ | .seReg _ _ | .sneReg _ _ | .jpV0 _ | .skp _ | .sknp _ => s
  | .ldByte x kk => s.setV x kk
  | .addByte x kk => s.setV x (s.getV x + kk)
  | .ldReg x y => s.setV x (s.getV y)
  | .orReg x y => s.setV x (s.getV x ||| s.getV y)
  | .andReg x y => s.setV x (s.getV x &&& s.getV y)
  | .xorReg x y => s.setV x (s.getV x ^^^ s.getV y)
  | .addReg x y => s.setResultAndFlag x (s.getV x + s.getV y) (carryFlag (s.getV x) (s.getV y))
  | .sub x y => s.setResultAndFlag x (s.getV x - s.getV y) (notBorrowFlag (s.getV x) (s.getV y))
  | .shr x y => s.setResultAndFlag x (s.shiftOperand x y >>> 1) (shrFlag (s.shiftOperand x y))
  | .subn x y => s.setResultAndFlag x (s.getV y - s.getV x) (notBorrowFlag (s.getV y) (s.getV x))
  | .shl x y => s.setResultAndFlag x (s.shiftOperand x y <<< 1) (shlFlag (s.shiftOperand x y))
  | .ldI nnn => { s with i := zext12 nnn }
  | .rnd x kk => s.setV x (s.rnd &&& kk)
  | .drw x y n => { s with fb := (s.drawn x y n).2 }.setV vf (bool (s.drawn x y n).1)
  | .ldVxDT x => s.setV x s.dt
  | .ldVxK x => { s with kreg := x, mode := .awaitKey }
  | .ldDTVx x => { s with dt := s.getV x }
  | .ldSTVx x => { s with st := s.getV x }
  | .addI x => { s with i := s.indexSum x }
  | .ldF x => { s with i := glyphAddress s.cfg (s.lowNibble x) }
  | .ldB x => { s with mem := s.mem.writeBytes s.cfg s.i.toNat (decimalDigits (s.getV x)) }
  | .stRegs x => { s with mem := s.mem.writeBytes s.cfg s.i.toNat (s.regsUpTo x) }
  | .ldRegs x => { s with v := setRegsFrom s.v 0 (s.mem.readBytes s.cfg s.i.toNat (x.val + 1)) }

/-- The end of an instruction that does not trap: its writes and its accepted `pc` write, or a PC_OVERFLOW (R17). -/
def Machine.State.finish (s u : State) (v : Nat) : State :=
  if v ≤ 0xFFF ∨ s.cfg.pcOverflow = .wrapToOrigin then { u with pc := BitVec.ofNat 16 (landing v), out := .done }
  else s.raise ⟨.pcOverflow, BitVec.ofNat 16 v⟩

theorem Machine.State.finish_of_accepts {s u : State} {v : Nat} (h : s.accepts v) :
    s.finish u v = { u with pc := BitVec.ofNat 16 (landing v), out := .done } := if_pos h

theorem Machine.State.finish_overflow {s u : State} {v : Nat} (h : ¬ s.accepts v) :
    s.finish u v = s.raise ⟨.pcOverflow, BitVec.ofNat 16 v⟩ := if_neg h

theorem Machine.commit_setPC_eq {s u : State} (v : Nat) (hc : u.cfg = s.cfg) :
    commit s (setPC v u) = .next (s.finish u v) := by
  by_cases h : s.accepts v
  · rw [State.finish_of_accepts h, commit_setPC ((State.accepts_congr hc).2 h)]
  · rw [State.finish_overflow h, commit_setPC_overflow (fun h' => h ((State.accepts_congr hc).1 h'))]

theorem Machine.zext12_eq (nnn : BitVec 12) : zext12 nnn = BitVec.ofNat 16 (landing nnn.toNat) := by
  apply BitVec.eq_of_toNat_eq
  have := nnn.isLt
  rw [toNat_zext12, toNat_ofNat_landing, landing_of_le (by omega)]

theorem Machine.landing_nnn {s u : State} (nnn : BitVec 12) :
    s.finish u nnn.toNat = { u with pc := zext12 nnn, out := .done } := by
  have := nnn.isLt
  rw [State.finish_of_accepts (State.accepts_of_le (by omega)), zext12_eq]

/-- The keys compare as `V[x] mod 16`. -/
theorem Machine.State.keyIsDown_eq (s : State) (x : Reg) :
    s.keyIsDown x = s.keys.getLsbD ((s.getV x).toNat % 16) := by
  rw [State.keyIsDown, State.toNat_lowNibble]

/-- Everything an instruction can do (R48, R66, R182, R189). -/
theorem exec_eq (i : Instr) (s : State) : exec i s =
    .next (match i.trap s with
      | some e => s.raise e
      | none => s.finish (i.writes s) (i.target s)) := by
  cases i
  case ret =>
    by_cases h : 0 < s.sp.val
    · rw [exec_ret, execRet, pop_of_pos h]
      simp only [Instr.trap, if_pos h]
      exact commit_setPC_eq _ rfl
    · rw [exec_ret, execRet, pop_empty h]
      simp only [Instr.trap, if_neg h]
      rfl
  case call nnn =>
    by_cases h : s.sp.val < 16
    · rw [exec_call, execCall, push_of_lt _ h]
      simp only [Instr.trap, if_pos h, Instr.target, Instr.writes, dif_pos h, landing_nnn, commit_ok]
    · rw [exec_call, execCall, push_full _ h]
      simp only [Instr.trap, if_neg h]
      rfl
  case jp nnn => simp only [exec_jp, execJp, Instr.trap, Instr.target, Instr.writes, landing_nnn, commit_ok]
  case jpV0 nnn => exact commit_setPC_eq _ rfl
  case seByte x kk =>
    rw [exec_seByte, execSeByte, skipIf_eq, commit_setPC_eq _ rfl]
    simp [Instr.trap, Instr.target, Instr.writes]
  case sneByte x kk =>
    rw [exec_sneByte, execSneByte, skipIf_eq, commit_setPC_eq _ rfl]
    by_cases h : s.getV x = kk <;> simp [Instr.trap, Instr.target, Instr.writes, h]
  case seReg x y =>
    rw [exec_seReg, execSeReg, skipIf_eq, commit_setPC_eq _ rfl]
    simp [Instr.trap, Instr.target, Instr.writes]
  case sneReg x y =>
    rw [exec_sneReg, execSneReg, skipIf_eq, commit_setPC_eq _ rfl]
    by_cases h : s.getV x = s.getV y <;> simp [Instr.trap, Instr.target, Instr.writes, h]
  case skp x =>
    rw [exec_skp, execSkp, skipIf_eq, commit_setPC_eq _ rfl, State.keyIsDown_eq]
    rfl
  case sknp x =>
    rw [exec_sknp, execSknp, skipIf_eq, commit_setPC_eq _ rfl, State.keyIsDown_eq]
    cases h : s.keys.getLsbD ((s.getV x).toNat % 16) <;> simp [Instr.trap, Instr.target, Instr.writes, h]
  case drw x y n =>
    by_cases h : n = 0 ∨ s.i.toNat + n ≤ 0x1000
    · rw [exec_drw, execDrw, loadBytes_of_range h]
      simp only [Instr.trap, if_pos h]
      exact commit_setPC_eq _ rfl
    · rw [exec_drw, execDrw, loadBytes_out h]
      simp only [Instr.trap, if_neg h]
      rfl
  case ldRegs x =>
    by_cases h : s.i.toNat + (x.val + 1) ≤ 0x1000
    · rw [exec_ldRegs, execLdRegs, loadBytes_of_range (Or.inr h)]
      simp only [Instr.trap, if_pos h]
      exact commit_setPC_eq _ rfl
    · rw [exec_ldRegs, execLdRegs, loadBytes_out (by omega)]
      simp only [Instr.trap, if_neg h]
      rfl
  case stRegs x =>
    by_cases h : s.i.toNat + (x.val + 1) ≤ 0x1000
    · rw [exec_stRegs, execStRegs, storeBytes_of_range (Or.inr (by simpa using h))]
      simp only [Instr.trap, if_pos h]
      exact commit_setPC_eq _ rfl
    · rw [exec_stRegs, execStRegs, storeBytes_out (by simpa using h)]
      simp only [Instr.trap, if_neg h]
      rfl
  case ldB x =>
    by_cases h : s.i.toNat + 3 ≤ 0x1000
    · rw [exec_ldB, execLdB, storeBytes_of_range (Or.inr (by simpa using h))]
      simp only [Instr.trap, if_pos h]
      exact commit_setPC_eq _ rfl
    · rw [exec_ldB, execLdB, storeBytes_out (by simpa using h)]
      simp only [Instr.trap, if_neg h]
      rfl
  all_goals exact commit_setPC_eq _ rfl

/-- An instruction that answers a next state trapped, completed, or overflowed `pc`. -/
theorem exec_cases {i : Instr} {s t : State} (h : exec i s = .next t) :
    (∃ e, i.trap s = some e ∧ t = s.raise e) ∨
    (i.trap s = none ∧ s.accepts (i.target s) ∧
      t = { i.writes s with pc := BitVec.ofNat 16 (landing (i.target s)), out := .done }) ∨
    (i.trap s = none ∧ ¬ s.accepts (i.target s) ∧ t = s.raise ⟨.pcOverflow, BitVec.ofNat 16 (i.target s)⟩) := by
  rw [exec_eq] at h
  have h := (Host.Outcome.next.inj h).symm
  cases hf : i.trap s with
  | some e => rw [hf] at h; exact Or.inl ⟨e, rfl, h⟩
  | none =>
    rw [hf] at h
    by_cases ha : s.accepts (i.target s)
    · exact Or.inr (Or.inl ⟨rfl, ha, by rw [h]; exact State.finish_of_accepts ha⟩)
    · exact Or.inr (Or.inr ⟨rfl, ha, by rw [h]; exact State.finish_overflow ha⟩)

/-- In a legal state the trap is the spec's own fault (R181). -/
theorem Instr.trap_eq_ownFault (i : Instr) {s : State} (h : s.i.toNat ≤ 0xFFF) : i.trap s = i.ownFault s := by
  have hm : max s.i.toNat 0x1000 = 0x1000 := by omega
  have hs := s.sp.isLt
  cases i <;> simp only [Instr.trap, Instr.ownFault, hm]
  case call => by_cases h : s.sp.val < 16 <;> simp [h] <;> omega
  case ret => by_cases h : 0 < s.sp.val <;> simp [h] <;> omega
  case drw x y n =>
    by_cases h1 : n = 0 ∨ s.i.toNat + n ≤ 0x1000
    · rw [if_pos h1, if_neg (by omega)]
    · rw [if_neg h1, if_pos (by omega)]; rfl
  case ldRegs x =>
    by_cases h1 : s.i.toNat + (x.val + 1) ≤ 0x1000
    · rw [if_pos h1, if_neg (by omega)]
    · rw [if_neg h1, if_pos (by omega)]; rfl
  case stRegs x =>
    by_cases h1 : s.i.toNat + (x.val + 1) ≤ 0x1000
    · rw [if_pos h1, if_neg (by omega)]
    · rw [if_neg h1, if_pos (by omega)]; rfl
  case ldB x =>
    by_cases h1 : s.i.toNat + 3 ≤ 0x1000
    · rw [if_pos h1, if_neg (by omega)]
    · rw [if_neg h1, if_pos (by omega)]; rfl

/-- Whether an instruction traps does not depend on the legality of the state. -/
theorem Instr.trap_isSome (i : Instr) (s : State) : (i.trap s).isSome = (i.ownFault s).isSome := by
  have hs := s.sp.isLt
  cases i <;> simp only [Instr.trap, Instr.ownFault]
  case call => by_cases h : s.sp.val < 16 <;> simp [h] <;> omega
  case ret => by_cases h : 0 < s.sp.val <;> simp [h] <;> omega
  case drw x y n =>
    by_cases h1 : n = 0 ∨ s.i.toNat + n ≤ 0x1000
    · rw [if_pos h1, if_neg (by omega)]
    · rw [if_neg h1, if_pos (by omega)]; rfl
  case ldRegs x =>
    by_cases h1 : s.i.toNat + (x.val + 1) ≤ 0x1000
    · rw [if_pos h1, if_neg (by omega)]
    · rw [if_neg h1, if_pos (by omega)]; rfl
  case stRegs x =>
    by_cases h1 : s.i.toNat + (x.val + 1) ≤ 0x1000
    · rw [if_pos h1, if_neg (by omega)]
    · rw [if_neg h1, if_pos (by omega)]; rfl
  case ldB x =>
    by_cases h1 : s.i.toNat + 3 ≤ 0x1000
    · rw [if_pos h1, if_neg (by omega)]
    · rw [if_neg h1, if_pos (by omega)]; rfl

/-! ### What the writes of an instruction leave alone (R12, R13, R19, R21, R23, R24, R28, R29) -/

theorem Instr.writes_cfg (i : Instr) (s : State) : (i.writes s).cfg = s.cfg := by
  cases i <;> first | rfl | (simp only [Instr.writes]; split <;> rfl)
theorem Instr.writes_pending (i : Instr) (s : State) : (i.writes s).pending = s.pending := by
  cases i <;> first | rfl | (simp only [Instr.writes]; split <;> rfl)
theorem Instr.writes_tick (i : Instr) (s : State) : (i.writes s).tick = s.tick := by
  cases i <;> first | rfl | (simp only [Instr.writes]; split <;> rfl)
theorem Instr.writes_fcause (i : Instr) (s : State) : (i.writes s).fcause = s.fcause := by
  cases i <;> first | rfl | (simp only [Instr.writes]; split <;> rfl)
theorem Instr.writes_finfo (i : Instr) (s : State) : (i.writes s).finfo = s.finfo := by
  cases i <;> first | rfl | (simp only [Instr.writes]; split <;> rfl)
theorem Instr.writes_mode (i : Instr) (s : State) : (i.writes s).mode = match i with | .ldVxK _ => .awaitKey | _ => s.mode := by
  cases i <;> first | rfl | (simp only [Instr.writes]; split <;> rfl)
theorem Instr.writes_i (i : Instr) (s : State) (h : i.writesI = false) : (i.writes s).i = s.i := by
  cases i <;> first | rfl | (simp only [Instr.writes]; split <;> rfl) | cases h
theorem Instr.writes_fb (i : Instr) (s : State) (h : i.writesFB = false) : (i.writes s).fb = s.fb := by
  cases i <;> first | rfl | (simp only [Instr.writes]; split <;> rfl) | cases h
theorem Instr.writes_dt (i : Instr) (s : State) (h : ∀ x, i ≠ .ldDTVx x) : (i.writes s).dt = s.dt := by
  cases i <;> first | rfl | (simp only [Instr.writes]; split <;> rfl) | exact absurd rfl (h _)
theorem Instr.writes_st (i : Instr) (s : State) (h : ∀ x, i ≠ .ldSTVx x) : (i.writes s).st = s.st := by
  cases i <;> first | rfl | (simp only [Instr.writes]; split <;> rfl) | exact absurd rfl (h _)
theorem Instr.writes_kreg (i : Instr) (s : State) (h : ∀ x, i ≠ .ldVxK x) : (i.writes s).kreg = s.kreg := by
  cases i <;> first | rfl | (simp only [Instr.writes]; split <;> rfl) | exact absurd rfl (h _)
theorem Instr.writes_stack (i : Instr) (s : State) (h : i.usesStack = false) : (i.writes s).stack = s.stack ∧ (i.writes s).sp = s.sp := by
  cases i <;> first | exact ⟨rfl, rfl⟩ | cases h

/-- A register that the table of R12 does not list keeps its value. -/
theorem Instr.writes_reg (i : Instr) (s : State) (r : Reg) (h : i.writesReg r = false) : (i.writes s).getV r = s.getV r := by
  cases i
  case ldRegs x =>
    show (setRegsFrom s.v 0 _)[r.val] = s.v[r.val]
    rw [getElem_setRegsFrom, if_neg]
    have : ¬ r.val ≤ x.val := by simpa [Instr.writesReg] using h
    simp; omega
  case call => simp only [Instr.writes]; split <;> rfl
  all_goals first
    | rfl
    | exact State.getV_setV_ne _ (by simpa [Instr.writesReg] using h)
    | (simp only [Instr.writes]; rw [State.getV_setResultAndFlag]; simp [Instr.writesReg] at h; simp [h])

/-- A byte outside the stored bytes keeps its value (R47, R56). -/
theorem Instr.writes_mem (i : Instr) (s : State) (a : Nat)
    (h : ∀ base n, i.storeWindow s = some (base, n) → a < base ∨ base + n ≤ a) : (i.writes s).byteAt a = s.byteAt a := by
  cases i
  case ldB x => exact Memory.read_writeBytes_outside (by simpa using h _ _ rfl)
  case stRegs x => exact Memory.read_writeBytes_outside (by simpa using h _ _ rfl)
  case call => simp only [Instr.writes]; split <;> rfl
  all_goals rfl

/-! ### Raise or complete -/

/-- An instruction raises nothing exactly when it does not trap and its `pc` write is accepted (R189). -/
theorem Instr.faults_none_iff {i : Instr} {s : State} : i.faults s = none ↔ i.trap s = none ∧ s.accepts (i.target s) := by
  unfold Instr.faults
  have := Instr.trap_isSome i s
  cases h : i.ownFault s with
  | some e => rw [h] at this; simp at this; simp; intro h2; rw [h2] at this; cases this
  | none =>
    rw [h] at this
    have h2 : i.trap s = none := by simpa using this
    simp only [h2, true_and]
    by_cases ha : s.accepts (i.target s)
    · simp only [ha, iff_true]
      rw [if_neg]
      rintro ⟨h1, h2⟩
      rcases ha with h | h
      · omega
      · rw [h2] at h; cases h
    · simp only [ha, iff_false]
      rw [if_pos (State.not_accepts_iff.1 ha)]; simp

/-- An instruction that raises nothing completes with its writes and its `pc` (R16, R66). -/
theorem exec_of_no_fault {i : Instr} {s : State} (h : i.faults s = none) :
    exec i s = .next { i.writes s with pc := BitVec.ofNat 16 (landing (i.target s)), out := .done } := by
  rw [exec_eq, (Instr.faults_none_iff.1 h).1]
  simp only [State.finish_of_accepts (Instr.faults_none_iff.1 h).2]

/-- An instruction that raises a fault has no other effect (R182). -/
theorem exec_of_faults {i : Instr} {s : State} (h : i.faults s ≠ none) :
    ∃ e, exec i s = .next (s.raise e) := by
  rw [exec_eq]
  cases ht : i.trap s with
  | some e => exact ⟨e, rfl⟩
  | none =>
    have : ¬ s.accepts (i.target s) := fun ha => h (Instr.faults_none_iff.2 ⟨ht, ha⟩)
    exact ⟨⟨.pcOverflow, BitVec.ofNat 16 (i.target s)⟩, by simp only [State.finish_overflow this]⟩

/-- An instruction that answers a next state raised its fault and did nothing else, or completed. -/
theorem exec_raises_or_completes {i : Instr} {s t : State} (h : exec i s = .next t) :
    (i.faults s ≠ none ∧ ∃ e, t = s.raise e) ∨
    (i.faults s = none ∧ t = { i.writes s with pc := BitVec.ofNat 16 (landing (i.target s)), out := .done }) := by
  by_cases hf : i.faults s = none
  · rw [exec_of_no_fault hf] at h; exact Or.inr ⟨hf, (Host.Outcome.next.inj h).symm⟩
  · obtain ⟨e, he⟩ := exec_of_faults hf
    rw [he] at h; exact Or.inl ⟨hf, e, (Host.Outcome.next.inj h).symm⟩

end Sys2Proof
end

