-- ==== Sys2Proof/Laws/Invariant.lean ====
section
/-!
SUPPORT. What each instruction's writes do to the clauses of `State.Inv`, and that every fault record is true: the parts
from which the invariance of a step is assembled.
-/

namespace Sys2Proof

open Machine

/-- `I` stays an address (R14). -/
theorem Instr.iRange_writes {i : Instr} {s : State} (h : s.Inv) : (i.writes s).i.toNat ≤ 0xFFF := by
  cases hw : i.writesI
  · rw [Instr.writes_i i s hw]; exact h.iRange
  · cases i <;> simp [Instr.writesI] at hw
    case ldI nnn => simp only [Instr.writes, toNat_zext12]; have := nnn.isLt; omega
    case addI x => simp only [Instr.writes, State.indexSum, BitVec.toNat_ofNat]; omega
    case ldF x => simp only [Instr.writes, glyphAddress, BitVec.toNat_ofNat]; omega

/-- Call-stack entries stay in range; the pushed `pc + 2` is one because the word at `pc` could be fetched (R19). -/
theorem Instr.stackRange_writes {i : Instr} {s : State} (h : s.Inv) (hp : s.pc.toNat + 1 ≤ 0xFFF) :
    ∀ w ∈ (i.writes s).stack.toList, w.toNat ≤ 0x1000 := by
  cases hw : i.usesStack
  · rw [(Instr.writes_stack i s hw).1]; exact h.stackRange
  · cases i <;> simp [Instr.usesStack] at hw
    case ret => exact h.stackRange
    case call nnn =>
      simp only [Instr.writes]
      split
      · intro w hw
        simp only [Vector.toList_set] at hw
        rcases List.mem_or_eq_of_mem_set hw with hw | rfl
        · exact h.stackRange w hw
        · simp only [BitVec.toNat_add]
          rw [show BitVec.toNat (2 : Word) = 2 from rfl]
          omega
      · exact h.stackRange

/-- Memory stays canonical: an instruction that does not trap stores inside the address space (R43). -/
theorem Instr.memWf_writes {i : Instr} {s : State} (h : s.Inv) (ht : i.trap s = none) : Memory.wf s.cfg (i.writes s).mem := by
  cases i
  case ldB x =>
    simp only [Instr.trap] at ht
    exact Memory.wf_writeBytes h.memWf (by rw [length_decimalDigits]; by_contra hc; rw [if_neg hc] at ht; cases ht)
  case stRegs x =>
    simp only [Instr.trap] at ht
    exact Memory.wf_writeBytes h.memWf (by rw [State.length_regsUpTo]; by_contra hc; rw [if_neg hc] at ht; cases ht)
  case call => simp only [Instr.writes]; split <;> exact h.memWf
  all_goals exact h.memWf

/-- The pixel array keeps its shape (R28). -/
theorem Instr.fbWf_writes {i : Instr} {s : State} (h : s.Inv) : FrameBuffer.wf s.cfg (i.writes s).fb := by
  cases hw : i.writesFB
  · rw [Instr.writes_fb i s hw]; exact h.fbWf
  · cases i <;> simp [Instr.writesFB] at hw
    case cls => exact FrameBuffer.wf_blank _
    case drw x y n => exact FrameBuffer.wf_drawSprite h.fbWf _ _ _

/-- How far a `pc` write can overshoot: `0xFFF + 0xFF` (R17, R87). -/
theorem Instr.target_le {i : Instr} {s : State} (h : s.Inv) (ha : ¬ s.accepts (i.target s)) : i.target s ≤ 0x10FE := by
  have hp := h.pcRange
  have hk : ∀ w : BitVec 12, w.toNat ≤ 0xFFF := fun w => by have := w.isLt; omega
  cases i <;> simp only [Instr.target] at ha ⊢
  case ret =>
    have := h.stackRange (s.stack[s.sp.val - 1]'(by omega)) (by simp)
    omega
  case jp n => have := hk n; omega
  case call n => have := hk n; omega
  case jpV0 n => have := hk n; have := (s.getV 0).isLt; omega
  all_goals first | omega | (split <;> omega)

/-- A fault keeps a legal state legal when its record is true (R24). -/
theorem Machine.State.inv_raise {s : State} {e : Trap} (h : (s.raise e).faultRecordOk) (hi : s.Inv) : (s.raise e).Inv :=
  ⟨hi.cfgWf, hi.iRange, hi.pcRange, hi.stackRange, hi.memWf, hi.fbWf, h⟩

/-- The record of a PC_OVERFLOW (R181, R186). -/
theorem Machine.State.faultRecordOk_overflow {s : State} {v : Nat} (hv : v ≤ 0x10FE) (ha : ¬ s.accepts v) : (s.raise ⟨.pcOverflow, BitVec.ofNat 16 v⟩).faultRecordOk := by
  have := State.not_accepts_iff.1 ha
  refine ⟨this.2, ?_, ?_⟩ <;> simp only [State.raise_finfo, BitVec.toNat_ofNat] <;> omega

/-- The record of an instruction's own fault (R181). -/
theorem Instr.faultRecordOk_ownFault {i : Instr} {s : State} {e : Trap} (h : i.ownFault s = some e) : (s.raise e).faultRecordOk := by
  cases i <;> simp only [Instr.ownFault] at h <;> try (cases h)
  all_goals
    split at h
    · obtain rfl := Option.some.inj h
      first | exact ⟨rfl, by assumption⟩ | exact rfl
    · cases h

/-- Leaving the queue keeps a legal state legal. -/
theorem Machine.State.inv_endOp {s : State} (h : s.Inv) : s.endOp.Inv :=
  ⟨h.cfgWf, h.iRange, h.pcRange, h.stackRange, h.memWf, h.fbWf, h.faultRecord⟩

end Sys2Proof
end

