-- ==== Sys2Proof/Laws/PerInstr.lean ====
section
/-!
SUPPORT. Statements about every instruction as it is written, one lemma per constructor: decoding the encoding of a
well-formed instruction gives it back (R61 to R64).
-/

namespace Sys2Proof.Laws.RoundTrip

/-- Decoding the encoding of `i` gives `i`. -/
def Statement (i : Instr) : Prop := i.WellFormed → decode (encode i) = .ok i

theorem cls : Statement .cls := fun _ => rfl
theorem ret : Statement .ret := fun _ => rfl
theorem jp (nnn : BitVec 12) : Statement (.jp nnn) := fun _ => by
  simp [encode, decode, family_encNNN, fieldNNN_encNNN]
theorem call (nnn : BitVec 12) : Statement (.call nnn) := fun _ => by
  simp [encode, decode, family_encNNN, fieldNNN_encNNN]
theorem seByte (x : Reg) (kk : Byte) : Statement (.seByte x kk) := fun _ => by
  simp [encode, decode, family_encXKK, fieldX_encXKK, fieldKK_encXKK]
theorem sneByte (x : Reg) (kk : Byte) : Statement (.sneByte x kk) := fun _ => by
  simp [encode, decode, family_encXKK, fieldX_encXKK, fieldKK_encXKK]
theorem seReg (x y : Reg) : Statement (.seReg x y) := fun _ => by
  simp [encode, decode, decodeN0, family_encXYN, fieldX_encXYN, fieldY_encXYN, fieldN_encXYN]
theorem ldByte (x : Reg) (kk : Byte) : Statement (.ldByte x kk) := fun _ => by
  simp [encode, decode, family_encXKK, fieldX_encXKK, fieldKK_encXKK]
theorem addByte (x : Reg) (kk : Byte) : Statement (.addByte x kk) := fun _ => by
  simp [encode, decode, family_encXKK, fieldX_encXKK, fieldKK_encXKK]
theorem ldReg (x y : Reg) : Statement (.ldReg x y) := fun _ => by
  simp [encode, decode, decode8, family_encXYN, fieldX_encXYN, fieldY_encXYN, fieldN_encXYN]
theorem orReg (x y : Reg) : Statement (.orReg x y) := fun _ => by
  simp [encode, decode, decode8, family_encXYN, fieldX_encXYN, fieldY_encXYN, fieldN_encXYN]
theorem andReg (x y : Reg) : Statement (.andReg x y) := fun _ => by
  simp [encode, decode, decode8, family_encXYN, fieldX_encXYN, fieldY_encXYN, fieldN_encXYN]
theorem xorReg (x y : Reg) : Statement (.xorReg x y) := fun _ => by
  simp [encode, decode, decode8, family_encXYN, fieldX_encXYN, fieldY_encXYN, fieldN_encXYN]
theorem addReg (x y : Reg) : Statement (.addReg x y) := fun _ => by
  simp [encode, decode, decode8, family_encXYN, fieldX_encXYN, fieldY_encXYN, fieldN_encXYN]
theorem sub (x y : Reg) : Statement (.sub x y) := fun _ => by
  simp [encode, decode, decode8, family_encXYN, fieldX_encXYN, fieldY_encXYN, fieldN_encXYN]
theorem shr (x y : Reg) : Statement (.shr x y) := fun _ => by
  simp [encode, decode, decode8, family_encXYN, fieldX_encXYN, fieldY_encXYN, fieldN_encXYN]
theorem subn (x y : Reg) : Statement (.subn x y) := fun _ => by
  simp [encode, decode, decode8, family_encXYN, fieldX_encXYN, fieldY_encXYN, fieldN_encXYN]
theorem shl (x y : Reg) : Statement (.shl x y) := fun _ => by
  simp [encode, decode, decode8, family_encXYN, fieldX_encXYN, fieldY_encXYN, fieldN_encXYN]
theorem sneReg (x y : Reg) : Statement (.sneReg x y) := fun _ => by
  simp [encode, decode, decodeN0, family_encXYN, fieldX_encXYN, fieldY_encXYN, fieldN_encXYN]
theorem ldI (nnn : BitVec 12) : Statement (.ldI nnn) := fun _ => by
  simp [encode, decode, family_encNNN, fieldNNN_encNNN]
theorem jpV0 (nnn : BitVec 12) : Statement (.jpV0 nnn) := fun _ => by
  simp [encode, decode, family_encNNN, fieldNNN_encNNN]
theorem rnd (x : Reg) (kk : Byte) : Statement (.rnd x kk) := fun _ => by
  simp [encode, decode, family_encXKK, fieldX_encXKK, fieldKK_encXKK]
theorem drw (x y : Reg) (n : Nat) : Statement (.drw x y n) := fun h => by
  have hn : n ≤ 15 := by simpa [Instr.WellFormed, Instr.wellFormed] using h
  simp [encode, decode, family_encXYN, fieldX_encXYN, fieldY_encXYN, fieldN_encXYN]
  omega
theorem skp (x : Reg) : Statement (.skp x) := fun _ => by
  simp [encode, decode, decodeE, family_encXKK, fieldX_encXKK, fieldKK_encXKK]
theorem sknp (x : Reg) : Statement (.sknp x) := fun _ => by
  simp [encode, decode, decodeE, family_encXKK, fieldX_encXKK, fieldKK_encXKK]
theorem ldVxDT (x : Reg) : Statement (.ldVxDT x) := fun _ => by
  simp [encode, decode, decodeF, family_encXKK, fieldX_encXKK, fieldKK_encXKK]
theorem ldVxK (x : Reg) : Statement (.ldVxK x) := fun _ => by
  simp [encode, decode, decodeF, family_encXKK, fieldX_encXKK, fieldKK_encXKK]
theorem ldDTVx (x : Reg) : Statement (.ldDTVx x) := fun _ => by
  simp [encode, decode, decodeF, family_encXKK, fieldX_encXKK, fieldKK_encXKK]
theorem ldSTVx (x : Reg) : Statement (.ldSTVx x) := fun _ => by
  simp [encode, decode, decodeF, family_encXKK, fieldX_encXKK, fieldKK_encXKK]
theorem addI (x : Reg) : Statement (.addI x) := fun _ => by
  simp [encode, decode, decodeF, family_encXKK, fieldX_encXKK, fieldKK_encXKK]
theorem ldF (x : Reg) : Statement (.ldF x) := fun _ => by
  simp [encode, decode, decodeF, family_encXKK, fieldX_encXKK, fieldKK_encXKK]
theorem ldB (x : Reg) : Statement (.ldB x) := fun _ => by
  simp [encode, decode, decodeF, family_encXKK, fieldX_encXKK, fieldKK_encXKK]
theorem stRegs (x : Reg) : Statement (.stRegs x) := fun _ => by
  simp [encode, decode, decodeF, family_encXKK, fieldX_encXKK, fieldKK_encXKK]
theorem ldRegs (x : Reg) : Statement (.ldRegs x) := fun _ => by
  simp [encode, decode, decodeF, family_encXKK, fieldX_encXKK, fieldKK_encXKK]

end Sys2Proof.Laws.RoundTrip
end

