-- ==== Sys2Proof/Tests/Slice0.lean ====
section
/-!
SUPPORT. The model's own tests. Expected values come from spec/95_test_vectors.md (the vector's id stands in the comment)
or from the encodings of R61 and R63; then, for every obligation with hypotheses, a concrete state and operands that meet
them all.
-/

namespace Sys2Proof.Tests

open Machine

/-! ### Well-formedness -/

theorem test_drw_of_16_rows_is_ill_formed : ¬ (Instr.drw 0 0 16).WellFormed := by decide
theorem test_drw_of_15_rows_is_well_formed : (Instr.drw 15 15 15).WellFormed := by decide
theorem test_drw_of_0_rows_is_well_formed : (Instr.drw 0 0 0).WellFormed := by decide

/-! ### Decoding: words written out from the formats of R61 and the rows of R63 -/

theorem test_decode_control :
    decodeTableWord 16 0b0000000011100000 = some .cls ∧
    decodeTableWord 16 0b0000000011101110 = some .ret ∧
    decodeTableWord 16 0b0001001000110100 = some (.jp 0x234) ∧
    decodeTableWord 16 0b0010001000001110 = some (.call 0x20E) ∧
    decodeTableWord 16 0b1011111111111111 = some (.jpV0 0xFFF) := by decide

theorem test_decode_skips :
    decodeTableWord 16 0b0011001100101010 = some (.seByte 3 0x2A) ∧
    decodeTableWord 16 0b0100001100101010 = some (.sneByte 3 0x2A) ∧
    decodeTableWord 16 0b0101000100100000 = some (.seReg 1 2) ∧
    decodeTableWord 16 0b1001000100100000 = some (.sneReg 1 2) ∧
    decodeTableWord 16 0b1110000110011110 = some (.skp 1) ∧
    decodeTableWord 16 0b1110000110100001 = some (.sknp 1) := by decide

theorem test_decode_immediate :
    decodeTableWord 16 0b0110000000000101 = some (.ldByte 0 5) ∧
    decodeTableWord 16 0b0110000100000010 = some (.ldByte 1 2) ∧
    decodeTableWord 16 0b0111101011111111 = some (.addByte 10 0xFF) ∧
    decodeTableWord 16 0b1100001100001111 = some (.rnd 3 0x0F) := by decide

theorem test_decode_family_8 :
    decodeTableWord 16 0b1000000100100000 = some (.ldReg 1 2) ∧
    decodeTableWord 16 0b1000000000010001 = some (.orReg 0 1) ∧
    decodeTableWord 16 0b1000000000010010 = some (.andReg 0 1) ∧
    decodeTableWord 16 0b1000000000010011 = some (.xorReg 0 1) ∧
    decodeTableWord 16 0b1000000000010100 = some (.addReg 0 1) ∧
    decodeTableWord 16 0b1000000000010101 = some (.sub 0 1) ∧
    decodeTableWord 16 0b1000010001010110 = some (.shr 4 5) ∧
    decodeTableWord 16 0b1000000000010111 = some (.subn 0 1) ∧
    decodeTableWord 16 0b1000010001011110 = some (.shl 4 5) := by decide

theorem test_decode_index_and_display :
    decodeTableWord 16 0b1010001100000000 = some (.ldI 0x300) ∧
    decodeTableWord 16 0b1101000000010010 = some (.drw 0 1 2) ∧
    decodeTableWord 16 0b1101000000000000 = some (.drw 0 0 0) := by decide

theorem test_decode_family_F :
    decodeTableWord 16 0b1111001000000111 = some (.ldVxDT 2) ∧
    decodeTableWord 16 0b1111000100001010 = some (.ldVxK 1) ∧
    decodeTableWord 16 0b1111000000010101 = some (.ldDTVx 0) ∧
    decodeTableWord 16 0b1111010100011000 = some (.ldSTVx 5) ∧
    decodeTableWord 16 0b1111000000011110 = some (.addI 0) ∧
    decodeTableWord 16 0b1111001000101001 = some (.ldF 2) ∧
    decodeTableWord 16 0b1111000000110011 = some (.ldB 0) ∧
    decodeTableWord 16 0b1111001001010101 = some (.stRegs 2) ∧
    decodeTableWord 16 0b1111001001100101 = some (.ldRegs 2) := by decide

/-- EN1 to EN8: unknown opcodes are refused by name. -/
theorem test_decode_unknown :
    [0x0000, 0x0123, 0x00E1, 0x00EF, 0x00FE, 0x5121, 0x912F, 0x8128, 0x812D, 0x812F, 0xE19F, 0xE1A0, 0xE100, 0xF100, 0xF108,
      0xF11F, 0xF130, 0xF175, 0xF185, 0xF1FF].all (fun w => decodeTableWord 16 w == none) = true := by decide

/-! ### Helpers -/

/-- The state after one step of the word `op`, placed where the next fetch reads it. -/
def after (op : Nat) (s : State) : State :=
  match step (s.withFetchWord 16 op) with
  | .next t => t
  | .fault _ | .refused _ => s

/-- The state after the embedding's operation `op`. -/
def afterOp (op : Operation) (s : State) : State :=
  match step { s with pending := [op] } with
  | .next t => t
  | .fault _ | .refused _ => s

/-- After power-on. -/
def s0 : State := State.reset

/-- `s0` at the top of memory, where `pc + 2` overflows under the default policy. -/
def top : State := { s0 with pc := 0xFFE }

/-- The same under the policy `FAULT`. -/
def topFault : State := { top with cfg := { defaultConfig with pcOverflow := .fault } }

/-- `s0` with `I` and the bytes at `I`. -/
def withI (i : Word) (bs : List Byte) : State := { s0 with i := i, mem := Memory.writeBytes defaultConfig [] i.toNat bs }

/-- `s0` with a step pending whose inputs are given. -/
def withInputs (keys : BitVec 16) (rnd : Byte) (s : State) : State := { s with pending := [.step keys rnd] }

/-- `s0` faulted as RET at depth 0 leaves it. -/
def faulted : State := s0.raise ⟨.stackUnderflow, 0x200⟩

/-! ### Control flow -/

theorem test_jp_CF1 : (after 0x1234 s0).pc = 0x234 := by decide
theorem test_jp_odd_CF3 : (after 0x1201 s0).pc = 0x201 := by decide
theorem test_call_CF4 : let t := after 0x220E s0; t.stack[0] = 0x202 ∧ t.sp = 1 ∧ t.pc = 0x20E := by decide
theorem test_call_full_CF6 : let t := after 0x2300 { s0 with sp := 16 };
    t.mode = .faulted ∧ t.fcause.code = 4 ∧ t.finfo = 0x200 ∧ t.pc = 0x200 ∧ t.sp = 16 := by decide
theorem test_ret_CF7 : let t := after 0x00EE { s0 with sp := 1, stack := s0.stack.set 0 0x206 };
    t.sp = 0 ∧ t.pc = 0x206 ∧ t.stack[0] = 0x206 := by decide
theorem test_ret_overflow_CF9 :
    let t := after 0x00EE { topFault with pc := 0x200, sp := 1, stack := s0.stack.set 0 0x1000 };
    t.fcause.code = 6 ∧ t.finfo = 0x1000 ∧ t.sp = 1 := by decide
theorem test_seByte_CF10 : (after 0x332A (s0.setV 3 0x2A)).pc = 0x204 := by decide
theorem test_seByte_CF11 : (after 0x332A (s0.setV 3 0x2B)).pc = 0x202 := by decide
theorem test_sneByte_CF12 : (after 0x432A (s0.setV 3 0x2A)).pc = 0x202 := by decide
theorem test_sneByte_CF13 : (after 0x432A s0).pc = 0x204 := by decide
theorem test_seReg_CF14 : (after 0x5120 ((s0.setV 1 7).setV 2 7)).pc = 0x204 := by decide
theorem test_seReg_CF15 : (after 0x5120 ((s0.setV 1 7).setV 2 8)).pc = 0x202 := by decide
theorem test_sneReg_CF17 : (after 0x9120 ((s0.setV 1 7).setV 2 8)).pc = 0x204 := by decide
theorem test_sneReg_CF18 : (after 0x9120 ((s0.setV 1 7).setV 2 7)).pc = 0x202 := by decide
theorem test_jpV0_CF21 : (after 0xBFFF (s0.setV 0 0xFF)).pc = 0x200 := by decide
theorem test_jpV0_fault_CF21 : let t := after 0xBFFF ({ topFault with pc := 0x200 }.setV 0 0xFF);
    t.out = .fault .pcOverflow 0x10FE ∧ t.pc = 0x200 := by decide
theorem test_wrap_CF24 : let t := after 0x6005 top; t.getV 0 = 5 ∧ t.pc = 0x200 := by decide
theorem test_wrap_fault_CF24 : let t := after 0x6005 topFault;
    t.out = .fault .pcOverflow 0x1000 ∧ t.getV 0 = 0 ∧ t.pc = 0xFFE := by decide

/-! ### Unknown opcodes -/

theorem test_unknown_EN1 : let t := after 0x0000 s0; t.out = .diagnostic 0x200 0x0000 ∧ t.pc = 0x202 := by decide
theorem test_unknown_overflow_RS9 : (after 0x0000 topFault).out = .fault .pcOverflow 0x1000 := by decide

/-! ### Loads and arithmetic -/

theorem test_ldByte_AL1 : (after 0x6ABC s0).getV 10 = 0xBC := by decide
theorem test_addByte_AL3 : let t := after 0x7A01 (s0.setV 10 0xFF); t.getV 10 = 0 ∧ t.getV vf = 0 := by decide
theorem test_ldReg_AL6 : (after 0x8120 (s0.setV 2 0x9C)).getV 1 = 0x9C := by decide
theorem test_or_AL7 : let t := after 0x8011 (((s0.setV 0 0xF0).setV 1 0x3C).setV vf 1);
    t.getV 0 = 0xFC ∧ t.getV vf = 1 := by decide
theorem test_and_AL8 : let t := after 0x8012 (((s0.setV 0 0xF0).setV 1 0x3C).setV vf 1);
    t.getV 0 = 0x30 ∧ t.getV vf = 1 := by decide
theorem test_xor_AL9 : let t := after 0x8013 (((s0.setV 0 0xF0).setV 1 0x3C).setV vf 1);
    t.getV 0 = 0xCC ∧ t.getV vf = 1 := by decide
theorem test_add_AL11 : let t := after 0x8014 ((s0.setV 0 0xFF).setV 1 0x01); t.getV 0 = 0 ∧ t.getV vf = 1 := by decide
theorem test_add_AL16 : (after 0x8F14 ((s0.setV vf 0x05).setV 1 0x03)).getV vf = 0 := by decide
theorem test_sub_AL20 : let t := after 0x8015 ((s0.setV 0 3).setV 1 5); t.getV 0 = 0xFE ∧ t.getV vf = 0 := by decide
theorem test_sub_AL21 : let t := after 0x8015 ((s0.setV 0 7).setV 1 7); t.getV 0 = 0 ∧ t.getV vf = 1 := by decide
theorem test_subn_AL26 : let t := after 0x8017 ((s0.setV 0 3).setV 1 5); t.getV 0 = 2 ∧ t.getV vf = 1 := by decide
theorem test_subn_AL27 : let t := after 0x8017 ((s0.setV 0 5).setV 1 3); t.getV 0 = 0xFE ∧ t.getV vf = 0 := by decide
theorem test_shr_AL31 : let t := after 0x8406 (s0.setV 4 0xFF); t.getV 4 = 0x7F ∧ t.getV vf = 1 := by decide
theorem test_shr_source_AL35 :
    let t := after 0x8456 ({ s0 with cfg := { defaultConfig with shiftSource := .vy } }.setV 4 0x01 |>.setV 5 0xF0);
    t.getV 4 = 0x78 ∧ t.getV vf = 0 ∧ t.getV 5 = 0xF0 := by decide
theorem test_shl_AL36 : let t := after 0x840E (s0.setV 4 0x81); t.getV 4 = 0x02 ∧ t.getV vf = 1 := by decide
theorem test_shl_AL37 : let t := after 0x840E ((s0.setV 4 0x40).setV vf 1); t.getV 4 = 0x80 ∧ t.getV vf = 0 := by decide
theorem test_rnd_AL41 : (after 0xC30F (withInputs 0 0xA7 s0)).getV 3 = 0x07 := by decide

/-! ### The address register and memory -/

theorem test_ldI_IX2 : (after 0xAFFF s0).i = 0xFFF := by decide
theorem test_addI_IX4 : let t := after 0xF01E ({ s0 with i := 0xFFF }.setV 0 1); t.i = 0 ∧ t.getV vf = 0 := by decide
theorem test_addI_IX5 : (after 0xF01E ({ s0 with i := 0xF80 }.setV 0 0xFF)).i = 0x07F := by decide
theorem test_ldF_IX7 : (after 0xF229 (s0.setV 2 0x1A)).i = 0x032 := by decide
theorem test_ldF_IX8 : (after 0xF229 (s0.setV 2 0x0F)).i = 0x04B := by decide
theorem test_ldB_IX9 : let t := after 0xF033 ((withI 0x300 []).setV 0 157);
    [t.byteAt 0x300, t.byteAt 0x301, t.byteAt 0x302, t.byteAt 0x303] = [1, 5, 7, 0] := by decide
theorem test_ldB_IX13 : let t := after 0xF033 ((withI 0xFFE [9]).setV 0 1);
    t.out = .fault .memRangeWrite 0x1000 ∧ t.byteAt 0xFFE = 9 ∧ t.pc = 0x200 := by decide
theorem test_stRegs_IX14 : let t := after 0xF255 ((((withI 0x400 []).setV 0 0x11).setV 1 0x22).setV 2 0x33 |>.setV 3 0x44);
    [t.byteAt 0x400, t.byteAt 0x401, t.byteAt 0x402, t.byteAt 0x403] = [0x11, 0x22, 0x33, 0] ∧ t.i = 0x400 := by decide
theorem test_stRegs_IX17 : (after 0xFF55 (withI 0xFF1 [])).out = .fault .memRangeWrite 0x1000 := by decide
theorem test_ldRegs_IX18 : let t := after 0xF265 ((withI 0x300 [1, 5, 7, 9]).setV 3 0xEE);
    [t.getV 0, t.getV 1, t.getV 2, t.getV 3] = [1, 5, 7, 0xEE] ∧ t.i = 0x300 := by decide
theorem test_ldRegs_IX20 : let t := after 0xF165 ((withI 0xFFF [3]).setV 0 8);
    t.out = .fault .memRangeRead 0x1000 ∧ t.getV 0 = 8 := by decide

/-! ### Display -/

theorem test_cls_DR1 : let t := after 0x00E0 ({ s0 with fb := flipPixel s0.fb 1 1 }.setV vf 1);
    pixelAt t.fb 1 1 = false ∧ t.getV vf = 1 := by decide
theorem test_drw_DR7 : let t := after 0xD012 (((withI 0x210 [0xC0, 0x81]).setV 0 62).setV 1 31);
    [pixelAt t.fb 31 62, pixelAt t.fb 31 63, pixelAt t.fb 0 62, pixelAt t.fb 0 5, pixelAt t.fb 0 63] =
      [true, true, true, true, false] ∧ t.getV vf = 0 := by decide
theorem test_drw_DR8 : let t := after 0xD011 { withI 0x300 [0xC0] with fb := flipPixel s0.fb 0 1 };
    pixelAt t.fb 0 0 = true ∧ pixelAt t.fb 0 1 = false ∧ t.getV vf = 1 := by decide

/-! ### Keys and timers -/

theorem test_skp_KT5 : (after 0xE19E (withInputs 0x0800 0 (s0.setV 1 0x1B))).pc = 0x204 := by decide
theorem test_skp_KT2 : (after 0xE19E (withInputs 0x0000 0 (s0.setV 1 0x0B))).pc = 0x202 := by decide
theorem test_sknp_KT3 : (after 0xE1A1 (withInputs 0x0800 0 (s0.setV 1 0x0B))).pc = 0x202 := by decide
theorem test_sknp_KT4 : (after 0xE1A1 (withInputs 0x0000 0 (s0.setV 1 0x0B))).pc = 0x204 := by decide
theorem test_ldVxK_KT7 : let t := after 0xF10A (withInputs 0xFFFF 0 s0);
    t.mode = .awaitKey ∧ t.kreg = 1 ∧ t.pc = 0x202 ∧ t.getV 1 = 0 := by decide
theorem test_ldDTVx_KT12 : (after 0xF015 (s0.setV 0 3)).dt = 3 := by decide
theorem test_ldSTVx_KT13 : let t := after 0xF518 (s0.setV 5 0x10); t.st = 0x10 ∧ t.soundActive = true := by decide
theorem test_ldVxDT_KT14 : (after 0xF207 { s0 with dt := 2 }).getV 2 = 2 := by decide

/-! ### The other operations of the embedding -/

theorem test_waiting_KT8 : let t := afterOp (.step 0 0) { s0 with mode := .awaitKey };
    t.out = .waiting ∧ t.pc = 0x200 := by decide
theorem test_keyDown_KT9 : let t := afterOp (.keyDown 0xB) { s0 with mode := .awaitKey, kreg := 1 };
    t.getV 1 = 0x0B ∧ t.mode = .running := by decide
theorem test_keyDown_discarded_KT10 : (afterOp (.keyDown 3) s0).v = s0.v := by decide
theorem test_decay_KT15 : let t := afterOp .decayTimers { s0 with dt := 5, st := 1 };
    t.dt = 4 ∧ t.st = 0 ∧ t.soundActive = false := by decide
theorem test_decay_floor_KT16 : (afterOp .decayTimers s0).dt = 0 := by decide
theorem test_powerOn_RS1 :
    (List.range 5).map s0.byteAt = [0xF0, 0x90, 0x90, 0x90, 0xF0] ∧
    (List.range 6).map (fun k => s0.byteAt (0x4B + k)) = [0xF0, 0x80, 0xF0, 0x80, 0x80, 0x00] := by decide
theorem test_loadProgram : let t := afterOp (.loadProgram [0x60, 0x05]) s0;
    t.out = .loaded ∧ t.byteAt 0x200 = 0x60 ∧ t.byteAt 0x201 = 0x05 := by decide
theorem test_reset_RS5 : let t := afterOp .reset { faulted with i := 0x300, dt := 9, mem := [(0x300, 0x55)] };
    t.mode = .running ∧ t.fcause = .none ∧ t.dt = 0 ∧ t.i = 0 ∧ t.byteAt 0x300 = 0x55 := by decide
theorem test_stillFaulted_RS7 : (afterOp (.step 0 0) faulted).out = .stillFaulted .stackUnderflow 0x200 := by decide
theorem test_fetch_RS8 : (afterOp (.step 0 0) { s0 with pc := 0xFFF }).out = .fault .memRangeFetch 0xFFF := by decide

/-! ### Witnesses: for each obligation with hypotheses, states and operands that meet them -/

theorem witness_EncodeThenDecodeIsIdentity : (Instr.drw 15 15 15).WellFormed ∧ (Instr.jp 0xFFF).WellFormed := by decide

theorem witness_DecodedWordIsItsEncoding : decode 0xDFFF = .ok (.drw 15 15 15) := rfl

theorem witness_UnknownWordsAreExactlyTheListed :
    decode 0x0FFF = .error .family0 ∧ decode 0x5001 = .error .family5 ∧ decode 0x8008 = .error .family8 ∧
    decode 0x900F = .error .family9 ∧ decode 0xE09F = .error .familyE ∧ decode 0xFF66 = .error .familyF :=
  ⟨rfl, rfl, rfl, rfl, rfl, rfl⟩

theorem witness_StepExecutesTheDecodedInstruction :
    let s := s0.withFetchWord 16 0x6005
    s.stepsNext = true ∧ s.mode = .running ∧ s.pc.toNat + 1 ≤ 0xFFF ∧ decode s.nextWord = .ok (.ldByte 0 5) ∧
      (Instr.ldByte 0 5).WellFormed := ⟨by decide, by decide, by decide, rfl, by decide⟩

theorem witness_UnknownOpcodeIsAReportedNoOp :
    (top.stepsNext = true ∧ top.mode = .running ∧ top.pc.toNat + 1 ≤ 0xFFF ∧ decode top.nextWord = .error .family0 ∧
      top.accepts (top.pc.toNat + 2)) ∧
    (topFault.stepsNext = true ∧ topFault.mode = .running ∧ topFault.pc.toNat + 1 ≤ 0xFFF ∧
      decode topFault.nextWord = .error .family0 ∧ ¬ topFault.accepts (topFault.pc.toNat + 2)) :=
  ⟨⟨rfl, rfl, by decide, rfl, Or.inr rfl⟩, rfl, rfl, by decide, rfl, State.not_accepts_iff.2 (by decide)⟩

theorem witness_FetchAtTheTopFaults :
    let s := { topFault with pc := 0xFFF }
    s.stepsNext = true ∧ s.mode = .running ∧ s.pc = 0xFFF := ⟨rfl, rfl, rfl⟩

theorem witness_StepOutsideRunningChangesNothing :
    let s := { s0 with mode := .awaitKey }
    (s.stepsNext = true ∧ s.mode = .awaitKey) ∧ faulted.stepsNext = true ∧ faulted.mode = .faulted :=
  ⟨⟨rfl, rfl⟩, rfl, rfl⟩

theorem witness_PlacedWordIsRunNext : decode 0x00E0 = .ok .cls := rfl

/-- A pending `power_on` without a display, and what step answers. -/
theorem witness_EveryOperationReturns :
    step { s0 with pending := [.powerOn { defaultConfig with displayW := 0 }] } = .refused .badConfiguration := rfl

/-- A configuration other than the default: a font of two-byte glyphs that ends where the font region ends. -/
def smallCfg : Config :=
  { defaultConfig with pcOverflow := .fault, displayW := 1, displayH := 1, fontBase := 0x1E0, fontStride := 2,
                       fontData := List.replicate 32 0xAA, memFill := 0xFF, shiftSource := .vy }

theorem witness_PowerOnStateIsLegal : smallCfg.wf := by decide

/-- A legal state in which most fields differ from their reset values. -/
def legal : State :=
  { s0 with v := Vector.replicate 16 7, i := 0xFFF, pc := 0xFFE, stack := s0.stack.set 0 0x1000, sp := 1, dt := 3,
            mem := [(0x300, 0x12)], fb := flipPixel s0.fb 1 1 }

theorem legal_stack : ∀ w ∈ legal.stack.toList, w = 0x1000 ∨ w = 0 := by
  intro w hw
  rw [show legal.stack.toList = (List.replicate 16 (0 : Word)).set 0 0x1000 from rfl] at hw
  rcases List.mem_or_eq_of_mem_set hw with h | h
  · exact Or.inr (List.mem_replicate.1 h).2
  · exact Or.inl h

theorem legal_inv : legal.Inv where
  cfgWf := by decide
  iRange := by decide
  pcRange := by decide
  stackRange := fun w hw => by rcases legal_stack w hw with rfl | rfl <;> decide
  memWf := by decide
  fbWf := FrameBuffer.wf_flip (cfg := defaultConfig) (fb := blankFB defaultConfig) (FrameBuffer.wf_blank _) 1 1
  faultRecord := ⟨rfl, rfl⟩

theorem witness_EveryStepKeepsTheStateLegal : legal.Inv ∧ ∃ t, step legal = .next t := ⟨legal_inv, _, rfl⟩

theorem witness_ModeFollowsTheTransitionTable : ∃ t, step legal = .next t := ⟨_, rfl⟩

theorem witness_FaultLeavesNoPartialEffect :
    let s := s0.withFetchWord 16 0x00EE
    s.mode ≠ .faulted ∧ ∃ t, step s = .next t ∧ t.mode = .faulted := ⟨by decide, _, rfl, rfl⟩

theorem witness_FaultedIsLeftOnlyByResetOrPowerOn : faulted.mode = .faulted ∧ ∃ t, step faulted = .next t := ⟨rfl, _, rfl⟩

theorem witness_ConfigurationIsFixedAtPowerOn :
    ∃ t, step { s0 with pending := [.powerOn smallCfg] } = .next t ∧ t.cfg = smallCfg := ⟨_, rfl, rfl⟩

theorem witness_OnlyListedRegistersAreWritten :
    (∃ t, exec (.ldByte 14 5) s0 = .next t) ∧ (Instr.ldByte 14 5).writesReg 15 = false := ⟨⟨_, rfl⟩, by decide⟩

theorem witness_OnlyTheStoredBytesChange :
    (∃ t, exec (.ldB 0) (withI 0xFFD []) = .next t) ∧
    (∀ base n, (Instr.ldB 0).storeWindow (withI 0xFFD []) = some (base, n) → 0xFFC < base ∨ base + n ≤ 0xFFC) ∧
    (∀ base n, (Instr.ldB 0).storeWindow (withI 0xFFD []) = some (base, n) → 0x1000 < base ∨ base + n ≤ 0x1000) := by
  refine ⟨⟨_, rfl⟩, ?_, ?_⟩ <;> intro base n h <;> cases h <;> decide

theorem witness_OnlyTheNamedInstructionsWriteEachRegister :
    (∃ t, exec (.ldByte 0 5) s0 = .next t) ∧ (Instr.ldByte 0 5).writesI = false ∧ (Instr.ldByte 0 5).usesStack = false ∧
    (Instr.ldByte 0 5).writesFB = false ∧ (Instr.ldByte 0 5).faults s0 = none := ⟨⟨_, rfl⟩, rfl, rfl, rfl, rfl⟩

theorem witness_InstructionFaultsExactlyAsListed :
    legal.Inv ∧ (Instr.stRegs 1).faults legal = some ⟨.memRangeWrite, 0x1000⟩ ∧ (Instr.stRegs 0).faults legal = none :=
  ⟨legal_inv, rfl, rfl⟩

theorem witness_WriteOnlyStateIsNeverRead :
    s0.readable = State.readable { s0 with st := 9, kreg := 3, finfo := 8 } ∧ ∃ t, exec (.ldVxDT 3) s0 = .next t :=
  ⟨rfl, _, rfl⟩

theorem witness_OnlyThreeInstructionsReadTheInputs :
    (∀ x, Instr.ldVxK 1 ≠ .skp x) ∧ (∀ x, Instr.ldVxK 1 ≠ .sknp x) ∧ (∀ x kk, Instr.ldVxK 1 ≠ .rnd x kk) ∧
    ∃ t, exec (.ldVxK 1) s0 = .next t :=
  ⟨fun _ h => Instr.noConfusion h, fun _ h => Instr.noConfusion h, fun _ _ h => Instr.noConfusion h, _, rfl⟩

/-- At the top of memory, where the unknown word 0 advances `pc` through the overflow policy. -/
theorem witness_EvenPcStaysEven :
    legal.Inv ∧ legal.evenFlow ∧ (∃ t, step legal = .next t) ∧
    ∀ i, legal.stepsNext = true → legal.mode = .running → decode legal.nextWord = .ok i → i.oddTarget legal = false :=
  ⟨legal_inv, ⟨by decide, fun w hw => by rcases legal_stack w hw with rfl | rfl <;> decide⟩, ⟨_, rfl⟩, fun i _ _ h => by
    rw [show decode legal.nextWord = .error .family0 from rfl] at h; cases h⟩

theorem witness_PcWritesFollowTheOverflowPolicy :
    (0xFFF ≤ 0xFFF) ∧ (0xFFF < 0x1000 ∧ top.cfg.pcOverflow = .wrapToOrigin) ∧
    (0xFFF < 0x1000 ∧ topFault.cfg.pcOverflow = .fault) := by decide

theorem witness_CallPushesTheReturnAddress :
    (State.sp { s0 with sp := 15 }).val < 16 ∧ (State.sp { s0 with sp := 16 }).val = 16 := by decide

theorem witness_ReturnPopsThePc :
    (let s := { s0 with sp := 16, stack := s0.stack.set 15 0x1000 }
     s.sp.val = (15 : Fin 16).val + 1 ∧ s.accepts s.stack[(15 : Fin 16).val].toNat) ∧ s0.sp.val = 0 :=
  ⟨⟨rfl, Or.inr rfl⟩, rfl⟩

theorem witness_JumpV0AddsRegisterZero :
    (let s := s0.setV 0 1; s.accepts ((0xFFE : BitVec 12).toNat + (s.getV 0).toNat)) ∧
    (let s := topFault.setV 0 1; ¬ s.accepts ((0xFFF : BitVec 12).toNat + (s.getV 0).toNat)) :=
  ⟨Or.inl (by decide), State.not_accepts_iff.2 (by decide)⟩

/-- A taken skip at 0xFFC: accepted by the default policy, refused by the other. -/
theorem witness_SkipsCompareAndSkip :
    (∃ p, setPC (0xFFC + (if s0.getV 0 = 0 then 4 else 2)) s0 = .ok p) ∧
    (∃ e, setPC (0xFFC + (if topFault.getV 0 = 0 then 4 else 2)) topFault = .error e) := ⟨⟨_, rfl⟩, _, rfl⟩

theorem witness_KeySkipsTestTheNamedKey :
    let s := withInputs 0x0800 0 { s0 with pc := 0xFFB }
    s.pending = .step 0x0800 0 :: [] ∧ s.accepts (s.pc.toNat + 4) := ⟨rfl, Or.inl (by decide)⟩

/-- A CALL at 0xFFC to a RET. -/
theorem witness_CallThenReturnRestoresPc :
    let s := { s0 with pc := 0xFFC, mem := [(0x300, 0x00), (0x301, 0xEE), (0xFFC, 0x23)] }
    s.pending = [] ∧ s.mode = .running ∧ s.sp.val < 16 ∧ s.pc.toNat ≤ 0xFFC ∧ decode s.nextWord = .ok (.call 0x300) ∧
    (0x300 : BitVec 12).toNat + 1 ≤ 0xFFF ∧
    decode (wordOfBytes (s.byteAt (0x300 : BitVec 12).toNat) (s.byteAt ((0x300 : BitVec 12).toNat + 1))) = .ok .ret :=
  ⟨rfl, rfl, by decide, by decide, rfl, by decide, rfl⟩

theorem witness_SelfJumpStaysPut :
    let s := s0.withFetchWord 16 0x1200
    s.stepsNext = true ∧ s.mode = .running ∧ s.atSelfJump := ⟨rfl, rfl, by decide, 0x200, rfl, rfl⟩

theorem witness_LoadByteSetsTheRegister : (∃ p, nextPC top = .ok p) ∧ ∃ e, nextPC topFault = .error e := ⟨⟨_, rfl⟩, _, rfl⟩

theorem witness_LoadRegisterCopies : (∃ p, nextPC top = .ok p) ∧ ∃ e, nextPC topFault = .error e := ⟨⟨_, rfl⟩, _, rfl⟩

theorem witness_UnflaggedArithmeticWritesOnlyVx : top.accepts (top.pc.toNat + 2) := Or.inr rfl

theorem witness_AddSetsSumAndCarry : (14 : Reg) ≠ vf ∧ top.accepts (top.pc.toNat + 2) := ⟨by decide, Or.inr rfl⟩

theorem witness_SubtractionsSetDifferenceAndNotBorrow : (14 : Reg) ≠ vf ∧ top.accepts (top.pc.toNat + 2) :=
  ⟨by decide, Or.inr rfl⟩

theorem witness_ShiftsSetResultAndShiftedOutBit :
    (14 : Reg) ≠ vf ∧ top.accepts (top.pc.toNat + 2) ∧
      (0 : Byte) = (if top.cfg.shiftSource = .vx then top.getV 14 else top.getV 15) := ⟨by decide, Or.inr rfl, by decide⟩

theorem witness_FlagIsWrittenLast :
    top.accepts (top.pc.toNat + 2) ∧ (0 : Byte) = (if top.cfg.shiftSource = .vx then top.getV vf else top.getV 3) :=
  ⟨Or.inr rfl, by decide⟩

theorem witness_RandomByteIsMasked :
    let s := withInputs 0 0xA7 top
    s.accepts (s.pc.toNat + 2) ∧ s.pending = .step 0 0xA7 :: [] ∧ (0x0F : Byte).getLsbD 7 = false :=
  ⟨Or.inr rfl, rfl, rfl⟩

theorem witness_LoadIndexSetsI : (∃ p, nextPC top = .ok p) ∧ ∃ e, nextPC topFault = .error e := ⟨⟨_, rfl⟩, _, rfl⟩

theorem witness_IndexArithmeticIsMasked : top.accepts (top.pc.toNat + 2) := Or.inr rfl

theorem witness_DecimalStoreWritesThreeDigits :
    let s := withI 0xFFD []
    s.i.toNat + 2 ≤ 0xFFF ∧ s.accepts (s.pc.toNat + 2) := ⟨by decide, Or.inl (by decide)⟩

theorem witness_BlockStoreWritesV0ToVx :
    let s := withI 0xFF0 []
    s.i.toNat + (15 : Reg).val ≤ 0xFFF ∧ s.accepts (s.pc.toNat + 2) := ⟨by decide, Or.inl (by decide)⟩

theorem witness_BlockLoadReadsV0ToVx :
    let s := withI 0xFFF [0x77]
    s.i.toNat + (0 : Reg).val ≤ 0xFFF ∧ s.accepts (s.pc.toNat + 2) := ⟨by decide, Or.inl (by decide)⟩

/-- The state after the store, its registers zeroed, meets the inner hypotheses. -/
theorem witness_BlockStoreThenLoadRoundTrips :
    let s := (withI 0xFFE []).setV 1 9
    let t : State := { s with mem := s.mem.writeBytes s.cfg 0xFFE [0, 9], pc := 0x202, out := .done }
    let u : State := { t with v := Vector.replicate 16 0 }
    s.i.toNat + (1 : Reg).val ≤ 0xFFF ∧ s.accepts (s.pc.toNat + 2) ∧ exec (.stRegs 1) s = .next t ∧ u.i = t.i ∧
      (∀ k, k ≤ (1 : Reg).val → u.byteAt (t.i.toNat + k) = t.byteAt (t.i.toNat + k)) ∧ u.accepts (u.pc.toNat + 2) :=
  ⟨by decide, Or.inl (by decide), rfl, rfl, fun _ _ => rfl, Or.inl (by decide)⟩

/-- `V[14]`, `V[15]` stored at the last two bytes of memory and fetched there. -/
theorem witness_StoredBytesAreFetchedBigEndian :
    let s := withI 0xFF0 []
    s.i.toNat + (15 : Reg).val ≤ 0xFFF ∧ s.accepts (s.pc.toNat + 2) ∧ (15 : Reg).val = (14 : Reg).val + 1 ∧
      (15 : Reg) ≤ 15 ∧ ∃ t, exec (.stRegs 15) s = .next t ∧
        let u := { t with pc := 0xFFE }
        u.cfg = t.cfg ∧ u.mem = t.mem ∧ u.pc.toNat = s.i.toNat + (14 : Reg).val :=
  ⟨by decide, Or.inl (by decide), rfl, by decide, _, rfl, rfl, rfl, rfl⟩

theorem witness_ClearBlanksEveryPixel : (∃ p, nextPC top = .ok p) ∧ ∃ e, nextPC topFault = .error e := ⟨⟨_, rfl⟩, _, rfl⟩

/-- Fifteen rows that end at the last byte of memory (DR12), and none with `I` anywhere. -/
theorem witness_DrawFlipsTheHitPixels :
    (let s := withI 0xFF1 []
     s.cfg.wf ∧ FrameBuffer.wf s.cfg s.fb ∧ (15 = 0 ∨ s.i.toNat + 15 ≤ 0x1000) ∧ s.accepts (s.pc.toNat + 2) ∧
       (List.replicate 15 (0 : Byte)).length = 15 ∧
       (∀ k, k < 15 → (List.replicate 15 (0 : Byte)).getD k 0 = s.byteAt (s.i.toNat + k)) ∧
       8 ≤ s.cfg.displayW ∧ 15 ≤ s.cfg.displayH) ∧
    (let s := withI 0xFFF []
     (0 = 0 ∨ s.i.toNat + 0 ≤ 0x1000) ∧ ([] : List Byte).length = 0) :=
  ⟨⟨by decide, FrameBuffer.wf_blank _, by decide, Or.inl (by decide), rfl, by decide, by decide, by decide⟩,
    by decide, rfl⟩

theorem witness_DrawIsInvolutive :
    let s := withI 0x300 [0x80]
    let t : State := { s with fb := flipPixel s.fb 0 0, pc := 0x202, out := .done }
    let u : State := { t with pc := 0x200 }
    s.cfg.wf ∧ 8 ≤ s.cfg.displayW ∧ 1 ≤ s.cfg.displayH ∧ s.fb = blankFB s.cfg ∧ (1 = 0 ∨ s.i.toNat + 1 ≤ 0x1000) ∧
      s.accepts (s.pc.toNat + 2) ∧ exec (.drw 0 0 1) s = .next t ∧ u.cfg = s.cfg ∧ u.fb = t.fb ∧ u.i = s.i ∧
      u.mem = s.mem ∧ u.getV 0 = s.getV 0 ∧ u.accepts (u.pc.toNat + 2) ∧ s.byteAt (s.i.toNat + 0) ≠ 0 :=
  ⟨by decide, by decide, by decide, rfl, by decide, Or.inl (by decide), rfl, rfl, rfl, rfl, rfl, rfl, Or.inl (by decide),
    by decide⟩

theorem witness_KeyWaitBegins : top.accepts (top.pc.toNat + 2) := Or.inr rfl

theorem witness_KeyDownEndsTheWait :
    (let s := { s0 with mode := .awaitKey, kreg := 15, pending := [.keyDown 0] }
     s.pending = .keyDown 0 :: [] ∧ s.mode = .awaitKey) ∧
    (let s := { s0 with pending := [.keyDown 3] }
     s.pending = .keyDown 3 :: [] ∧ s.mode ≠ .awaitKey) := by decide

theorem witness_TimerInstructionsCopy : (∃ p, nextPC top = .ok p) ∧ ∃ e, nextPC topFault = .error e := ⟨⟨_, rfl⟩, _, rfl⟩

theorem witness_DecayLowersEachTimer : State.pending { faulted with pending := [.decayTimers] } = .decayTimers :: [] := rfl

theorem witness_TimersReachZeroAndStay :
    let s := { s0 with dt := 5, pending := List.replicate 7 .decayTimers }
    s.pending = List.replicate 7 .decayTimers ++ [] := rfl

theorem witness_LoadProgramWritesVerbatimOrNothing :
    (let bs := List.replicate 3584 (7 : Byte)
     State.pending { s0 with pending := [.loadProgram bs] } = .loadProgram bs :: [] ∧ bs.length ≤ 3584) ∧
    (let bs := List.replicate 3585 (7 : Byte)
     State.pending { s0 with pending := [.loadProgram bs] } = .loadProgram bs :: [] ∧ 3584 < bs.length) := by
  exact ⟨⟨rfl, by rw [List.length_replicate]⟩, rfl, by rw [List.length_replicate]; decide⟩

theorem witness_ResetRestartsWithoutReloading : State.pending { faulted with pending := [.reset] } = .reset :: [] := rfl

theorem witness_PowerOnInitialisesEverything :
    State.pending { legal with pending := [.powerOn smallCfg] } = .powerOn smallCfg :: [] ∧ smallCfg.wf := ⟨rfl, by decide⟩

end Sys2Proof.Tests
end

section
/-!
SUPPORT. Which operations answer a next state: every instruction step, and every other operation but a `power_on` that
breaks R5 (R66, log entry 11).
-/

namespace Sys2Proof

open Machine

/-- An instruction step answers in every mode and for every word (R66). -/
theorem Machine.stepOp_answers (s : State) : ∃ t, stepOp s = .next t := by
  rcases stepOp_cases s with
    ⟨_, faulted⟩ | ⟨_, waiting⟩ | ⟨_, _, fetchFault⟩ | ⟨i, _, _, _, known⟩ | ⟨_, _, _, _, unknown⟩
  · exact ⟨_, faulted⟩
  · exact ⟨_, waiting⟩
  · exact ⟨_, fetchFault⟩
  · exact ⟨_, known.trans (exec_eq i s)⟩
  · rcases execUnknown_spec s.nextWord s with ⟨_, noOp⟩ | ⟨_, overflow⟩
    · exact ⟨_, unknown.trans noOp⟩
    · exact ⟨_, unknown.trans overflow⟩

theorem Machine.perform_powerOn_of_wf {cfg : Config} (h : cfg.wf) (s : State) :
    perform (.powerOn cfg) s = .next (powerOnOp cfg s) := if_pos h

theorem Machine.perform_powerOn_of_not_wf {cfg : Config} (h : ¬ cfg.wf) (s : State) :
    perform (.powerOn cfg) s = .refused .badConfiguration := if_neg h

/-- An operation answers, or it is a `power_on` that breaks R5 and is refused. -/
theorem Machine.perform_answers_or_refuses (op : Operation) (s : State) :
    (∃ t, perform op s = .next t) ∨
    (∃ cfg, op = .powerOn cfg ∧ ¬ cfg.wf ∧ perform op s = .refused .badConfiguration) := by
  cases op with
  | step keys rnd => exact Or.inl (stepOp_answers s)
  | powerOn cfg =>
    by_cases h : cfg.wf
    · exact Or.inl ⟨_, perform_powerOn_of_wf h s⟩
    · exact Or.inr ⟨cfg, rfl, h, perform_powerOn_of_not_wf h s⟩
  | reset => exact Or.inl ⟨resetOp s, rfl⟩
  | loadProgram bytes => exact Or.inl ⟨loadProgramOp bytes s, rfl⟩
  | decayTimers => exact Or.inl ⟨decayTimersOp s, rfl⟩
  | keyDown k => exact Or.inl ⟨keyDownOp k s, rfl⟩

/-- Settles O10: a step performs an instruction step or the pending operation, and `endOperation` keeps the kind of its
answer. -/
theorem everyOperationReturns : Obligations.EveryOperationReturns := by
  intro s
  rcases step_cases s with ⟨_, hstep⟩ | ⟨op, rest, _, hp, hstep⟩
  · obtain ⟨u, hu⟩ := stepOp_answers s
    exact Or.inl ⟨u.endOp, by rw [hstep, hu, endOperation_next]⟩
  · rcases perform_answers_or_refuses op s with ⟨u, hu⟩ | ⟨cfg, rfl, hcfg, hu⟩
    · exact Or.inl ⟨u.endOp, by rw [hstep, hu, endOperation_next]⟩
    · exact Or.inr ⟨cfg, rest, hp, hcfg, by rw [hstep, hu]; rfl⟩

end Sys2Proof
end

section
/-!
SUPPORT. The state as a whole (spec/10_state.md): the legal states under every operation, which operation and which
instruction writes what, what no instruction reads, and the parity of `pc`.
-/

namespace Sys2Proof

open Machine

/-! ### The legal states under what a step does -/

/-- A machine that is not faulted has the fault record `NONE`, 0 (R24). -/
theorem Machine.State.faultRecordOk_iff_of_unfaulted {s : State} (h : s.Unfaulted) :
    s.faultRecordOk ↔ s.fcause = .none ∧ s.finfo = 0 := by
  unfold State.faultRecordOk
  cases hm : s.mode
  case faulted => exact absurd hm h
  all_goals rfl

theorem Machine.State.unfaulted_of_running {s : State} (h : s.mode = .running) : s.Unfaulted := by
  simp [State.Unfaulted, h]

/-- The report is no part of legality. -/
theorem Machine.State.inv_report {s : State} (h : s.Inv) (r : Report) : { s with out := r }.Inv :=
  ⟨h.cfgWf, h.iRange, h.pcRange, h.stackRange, h.memWf, h.fbWf, h.faultRecord⟩

/-- The no-op of an unknown opcode writes `pc` alone, and the write lands inside the address space (R17, R65). -/
theorem Machine.State.inv_landed {s : State} (h : s.Inv) (hu : s.Unfaulted) (v : Nat) (r : Report) :
    { s with pc := BitVec.ofNat 16 (landing v), out := r }.Inv where
  cfgWf := h.cfgWf
  iRange := h.iRange
  pcRange := (toNat_ofNat_landing v).trans_le (landing_le v)
  stackRange := h.stackRange
  memWf := h.memWf
  fbWf := h.fbWf
  faultRecord :=
    (State.faultRecordOk_iff_of_unfaulted (by exact hu)).2 ((State.faultRecordOk_iff_of_unfaulted hu).1 h.faultRecord)

/-- A fetch fault is raised at 0xFFF, the only legal `pc` without a second byte (R44, D11). -/
theorem Machine.State.inv_raise_fetch {s : State} (h : s.Inv) (hp : ¬ s.pc.toNat + 1 ≤ 0xFFF) :
    (s.raise ⟨.memRangeFetch, s.pc⟩).Inv := by
  have hpc : s.pc = 0xFFF := by
    apply BitVec.eq_of_toNat_eq
    have := h.pcRange
    change s.pc.toNat = 0xFFF
    omega
  exact State.inv_raise ⟨rfl, hpc⟩ h

theorem Instr.unfaulted_writes (i : Instr) {s : State} (hm : s.mode = .running) : (i.writes s).Unfaulted := by
  unfold State.Unfaulted
  rw [Instr.writes_mode, hm]
  split <;> decide

/-- The writes of an instruction that was fetched and does not trap leave a legal state, wherever its `pc` write then
lands. -/
theorem Instr.inv_writes {i : Instr} {s : State} (h : s.Inv) (hm : s.mode = .running) (hp : s.pc.toNat + 1 ≤ 0xFFF)
    (ht : i.trap s = none) (v : Nat) (r : Report) :
    { i.writes s with pc := BitVec.ofNat 16 (landing v), out := r }.Inv := by
  have hr := (State.faultRecordOk_iff_of_unfaulted (State.unfaulted_of_running hm)).1 h.faultRecord
  constructor <;> simp only [Instr.writes_cfg]
  case cfgWf => exact h.cfgWf
  case iRange => exact Instr.iRange_writes h
  case pcRange => exact (toNat_ofNat_landing v).trans_le (landing_le v)
  case stackRange => exact Instr.stackRange_writes h hp
  case memWf => exact Instr.memWf_writes h ht
  case fbWf => exact Instr.fbWf_writes h
  case faultRecord =>
    refine (State.faultRecordOk_iff_of_unfaulted (by exact Instr.unfaulted_writes i hm)).2 ?_
    simpa only [Instr.writes_fcause, Instr.writes_finfo] using hr

/-- An instruction that was fetched leaves a legal state, whether it traps, completes or overflows `pc`. -/
theorem Instr.inv_exec {i : Instr} {s t : State} (h : s.Inv) (hm : s.mode = .running) (hp : s.pc.toNat + 1 ≤ 0xFFF)
    (he : exec i s = .next t) : t.Inv := by
  rcases exec_cases he with ⟨e, ht, rfl⟩ | ⟨ht, _, rfl⟩ | ⟨_, ha, rfl⟩
  · rw [Instr.trap_eq_ownFault i h.iRange] at ht
    exact State.inv_raise (Instr.faultRecordOk_ownFault ht) h
  · exact Instr.inv_writes h hm hp ht _ _
  · exact State.inv_raise (State.faultRecordOk_overflow (Instr.target_le h ha) ha) h

/-- The operation `step` keeps a legal state legal (R66). -/
theorem Machine.inv_stepOp {s t : State} (h : s.Inv) (ht : stepOp s = .next t) : t.Inv := by
  rcases stepOp_next_cases ht with
    ⟨_, r, rfl⟩ | ⟨_, hp, rfl⟩ | ⟨i, hm, hp, _, he⟩ | ⟨u, hm, hp, _, ⟨_, rfl⟩ | ⟨ha, rfl⟩⟩
  · exact State.inv_report h r
  · exact State.inv_raise_fetch h hp
  · exact Instr.inv_exec h hm hp he
  · exact State.inv_landed h (State.unfaulted_of_running hm) _ _
  · exact State.inv_raise (State.faultRecordOk_overflow (by omega) ha) h

/-! ### The legal states under the other operations -/

theorem Machine.eq_zero_of_mem_powerOn_stack {cfg : Config} {w : Word} (h : w ∈ (State.powerOn cfg).stack.toList) :
    w = 0 := by
  rw [State.powerOn_stack, Vector.toList_replicate] at h
  exact List.eq_of_mem_replicate h

theorem Machine.inv_powerOnOp {cfg : Config} (h : cfg.wf) (s : State) : (powerOnOp cfg s).Inv where
  cfgWf := h
  iRange := Nat.zero_le _
  pcRange := show BitVec.toNat (0x200 : Word) ≤ 0xFFF by decide
  stackRange w hw := by rw [eq_zero_of_mem_powerOn_stack (cfg := cfg) hw]; decide
  memWf := Memory.wf_nil cfg
  fbWf := FrameBuffer.wf_blank cfg
  faultRecord := ⟨rfl, rfl⟩

/-- `reset()` is a `power_on` with the same configuration that keeps `Mem` and `FB` (R211). -/
theorem Machine.inv_resetOp {s : State} (h : s.Inv) : (resetOp s).Inv :=
  have hp := inv_powerOnOp h.cfgWf s
  ⟨hp.cfgWf, hp.iRange, hp.pcRange, hp.stackRange, h.memWf, h.fbWf, hp.faultRecord⟩

/-- An image of at most 3584 bytes ends inside the address space (R212). -/
theorem Machine.inv_loadProgramOp {s : State} (h : s.Inv) (bytes : List Byte) : (loadProgramOp bytes s).Inv := by
  rcases loadProgramOp_cases bytes s with ⟨hl, he⟩ | ⟨_, he⟩ <;> rw [he]
  · exact ⟨h.cfgWf, h.iRange, h.pcRange, h.stackRange, Memory.wf_writeBytes h.memWf (by omega), h.fbWf, h.faultRecord⟩
  · exact State.inv_report h _

theorem Machine.inv_decayTimersOp {s : State} (h : s.Inv) : (decayTimersOp s).Inv :=
  ⟨h.cfgWf, h.iRange, h.pcRange, h.stackRange, h.memWf, h.fbWf, h.faultRecord⟩

/-- A waiting machine that a key resumes has, as before, no fault on record (R168). -/
theorem Machine.inv_keyDownOp {s : State} (h : s.Inv) (k : BitVec 4) : (keyDownOp k s).Inv := by
  rcases keyDownOp_cases k s with ⟨hm, he⟩ | ⟨_, he⟩ <;> rw [he]
  · have hu : s.Unfaulted := by simp [State.Unfaulted, hm]
    exact ⟨h.cfgWf, h.iRange, h.pcRange, h.stackRange, h.memWf, h.fbWf,
      (State.faultRecordOk_iff_of_unfaulted hu).1 h.faultRecord⟩
  · exact State.inv_report h _

/-- Settles O12: the operation performed keeps the state legal, and so does its leaving the queue. -/
theorem everyStepKeepsTheStateLegal : Obligations.EveryStepKeepsTheStateLegal := by
  intro s t h ht
  rcases step_next_cases ht with
    ⟨_, u, hu, rfl⟩ | ⟨cfg, _, _, hc, rfl⟩ | ⟨_, _, rfl⟩ | ⟨bytes, _, _, rfl⟩ | ⟨_, _, rfl⟩ | ⟨k, _, _, rfl⟩ <;>
    apply State.inv_endOp
  · exact inv_stepOp h hu
  · exact inv_powerOnOp hc s
  · exact inv_resetOp h
  · exact inv_loadProgramOp h bytes
  · exact inv_decayTimersOp h
  · exact inv_keyDownOp h k

/-! ### Who writes what -/

theorem exec_cfg {i : Instr} {s t : State} (h : exec i s = .next t) : t.cfg = s.cfg := by
  rcases exec_raises_or_completes h with ⟨_, e, rfl⟩ | ⟨_, rfl⟩
  · rfl
  · exact Instr.writes_cfg i s

theorem Machine.stepOp_cfg {s t : State} (h : stepOp s = .next t) : t.cfg = s.cfg := by
  rcases stepOp_next_cases h with ⟨_, r, rfl⟩ | ⟨_, _, rfl⟩ | ⟨i, _, _, _, he⟩ | ⟨_, _, _, _, ⟨_, rfl⟩ | ⟨_, rfl⟩⟩
  case inr.inr.inl => exact exec_cfg he
  all_goals rfl

theorem Machine.loadProgramOp_cfg (bytes : List Byte) (s : State) : (loadProgramOp bytes s).cfg = s.cfg := by
  rcases loadProgramOp_cases bytes s with ⟨_, he⟩ | ⟨_, he⟩ <;> simp [he]

theorem Machine.keyDownOp_cfg (k : BitVec 4) (s : State) : (keyDownOp k s).cfg = s.cfg := by
  rcases keyDownOp_cases k s with ⟨_, he⟩ | ⟨_, he⟩ <;> simp [he]

/-- Settles O16: of the six operations only `power_on` writes `cfg`, and it writes its argument. -/
theorem configurationIsFixedAtPowerOn : Obligations.ConfigurationIsFixedAtPowerOn := by
  intro s t ht
  rcases step_next_cases ht with
    ⟨_, u, hu, rfl⟩ | ⟨cfg, rest, hp, _, rfl⟩ | ⟨_, _, rfl⟩ | ⟨bytes, _, _, rfl⟩ | ⟨_, _, rfl⟩ | ⟨k, _, _, rfl⟩
  · exact Or.inl ((State.endOp_cfg u).trans (stepOp_cfg hu))
  · exact Or.inr ⟨rest, hp⟩
  · exact Or.inl rfl
  · exact Or.inl (loadProgramOp_cfg bytes s)
  · exact Or.inl rfl
  · exact Or.inl (keyDownOp_cfg k s)

/-- Settles O17: a fault writes no general register, a completed instruction only those that R12 lists. -/
theorem onlyListedRegistersAreWritten : Obligations.OnlyListedRegistersAreWritten := by
  intro i s t r h hr
  rcases exec_raises_or_completes h with ⟨_, e, rfl⟩ | ⟨_, rfl⟩
  · rfl
  · exact Instr.writes_reg i s r hr

/-- Settles O19: a fault writes none of these but its record, a completed instruction has the frame of its writes. -/
theorem onlyTheNamedInstructionsWriteEachRegister : Obligations.OnlyTheNamedInstructionsWriteEachRegister := by
  intro i s t h
  rcases exec_raises_or_completes h with ⟨hf, e, rfl⟩ | ⟨_, rfl⟩
  · exact ⟨fun _ => rfl, fun _ => ⟨rfl, rfl⟩, fun _ => rfl, fun _ => rfl, fun _ => rfl, fun _ => rfl,
      fun hn => absurd hn hf, rfl, rfl, rfl⟩
  · exact ⟨Instr.writes_i i s, Instr.writes_stack i s, Instr.writes_fb i s, Instr.writes_dt i s, Instr.writes_st i s,
      Instr.writes_kreg i s, fun _ => ⟨Instr.writes_fcause i s, Instr.writes_finfo i s⟩, Instr.writes_cfg i s,
      Instr.writes_pending i s, Instr.writes_tick i s⟩

/-! ### Which fault an instruction raises -/

/-- The fault an instruction raises is its own, or, when it has none, the overflow of its `pc` write (R189). -/
theorem Instr.faults_some_cases {i : Instr} {s : State} {e : Trap} (h : i.faults s = some e) :
    i.ownFault s = some e ∨
    (i.ownFault s = none ∧ ¬ s.accepts (i.target s) ∧ e = ⟨.pcOverflow, BitVec.ofNat 16 (i.target s)⟩) := by
  unfold Instr.faults at h
  cases ho : i.ownFault s with
  | some e' => rw [ho] at h; exact Or.inl h
  | none =>
    simp only [ho] at h
    split at h
    next hc => exact Or.inr ⟨rfl, State.not_accepts_iff.2 hc, (Option.some.inj h).symm⟩
    next => cases h

/-- Settles O20: in a legal state the trap is the fault of R181, and a refused `pc` write is the only other fault. -/
theorem instructionFaultsExactlyAsListed : Obligations.InstructionFaultsExactlyAsListed := by
  intro i s h
  refine ⟨fun e hf => ?_, fun hf => ⟨_, exec_of_no_fault hf, rfl, toNat_ofNat_landing _⟩⟩
  rw [exec_eq, Instr.trap_eq_ownFault i h.iRange]
  rcases Instr.faults_some_cases hf with ho | ⟨ho, ha, rfl⟩
  · rw [ho]
  · rw [ho]
    simp only [State.finish_overflow ha]

/-! ### What no instruction reads -/

/-- No condition for a fault and no `pc` target looks at what `State.readable` leaves out. -/
theorem Instr.faults_readable (i : Instr) (s : State) : i.faults s.readable = i.faults s := by
  cases i <;> rfl

theorem Instr.target_readable (i : Instr) (s : State) : i.target s.readable = i.target s := by
  cases i <;> rfl

theorem Instr.writes_readable (i : Instr) (s : State) : (i.writes s.readable).readable = (i.writes s).readable := by
  cases i
  case call nnn =>
    have hsp : s.readable.sp = s.sp := rfl
    simp only [Instr.writes, hsp]
    split <;> rfl
  all_goals rfl

/-- An instruction does to the readable part of a state what it does to the state. -/
theorem exec_readable {i : Instr} {s t r : State} (hs : exec i s = .next t) (hr : exec i s.readable = .next r) :
    r.readable = t.readable := by
  rcases exec_raises_or_completes hs with ⟨hf, e, rfl⟩ | ⟨hf, rfl⟩ <;>
    rcases exec_raises_or_completes hr with ⟨hf', e', rfl⟩ | ⟨hf', rfl⟩ <;>
    rw [Instr.faults_readable] at hf'
  · rfl
  · exact absurd hf' hf
  · exact absurd hf hf'
  · rw [Instr.target_readable]
    exact congrArg (fun u : State => { u with pc := BitVec.ofNat 16 (landing (i.target s)) }) (Instr.writes_readable i s)

theorem exec_answers (i : Instr) (s : State) : ∃ t, exec i s = .next t := ⟨_, exec_eq i s⟩

/-- Settles O21: both runs do to their readable part what an instruction does to the one readable part that they share. -/
theorem writeOnlyStateIsNeverRead : Obligations.WriteOnlyStateIsNeverRead := by
  intro i s u t hsu hs
  obtain ⟨w, hw⟩ := exec_answers i u
  obtain ⟨r, hr⟩ := exec_answers i s.readable
  exact ⟨w, hw, (exec_readable hw (hsu ▸ hr)).symm.trans (exec_readable hs hr)⟩

/-! ### The parity of `pc` -/

/-- The origin is even, so the overflow policy keeps an even value even (R17). -/
theorem Machine.landing_even {v : Nat} (h : v % 2 = 0) : landing v % 2 = 0 := by
  unfold landing; split <;> omega

/-- With `pc` and the stack even, only a jump to an odd target writes an odd value to `pc` (R18). -/
theorem Instr.target_even {i : Instr} {s : State} (h : s.evenFlow) (ho : i.oddTarget s = false) :
    i.target s % 2 = 0 := by
  obtain ⟨hpc, hstack⟩ := h
  cases i <;> simp only [Instr.target]
  case ret => exact hstack _ (by simp)
  case jp nnn | call nnn | jpV0 nnn => simpa [Instr.oddTarget] using ho
  case seByte | sneByte | seReg | sneReg | skp | sknp => split <;> omega
  all_goals omega

/-- CALL pushes `pc + 2`, as even as `pc`; no other instruction writes an entry (R19, R82). -/
theorem Instr.stack_writes_even {i : Instr} {s : State} (h : s.evenFlow) :
    ∀ w ∈ (i.writes s).stack.toList, w.toNat % 2 = 0 := by
  obtain ⟨hpc, hstack⟩ := h
  cases hu : i.usesStack
  · rw [(Instr.writes_stack i s hu).1]; exact hstack
  · cases i <;> simp [Instr.usesStack] at hu
    case ret => exact hstack
    case call nnn =>
      simp only [Instr.writes]
      split
      · intro w hw
        simp only [Vector.toList_set] at hw
        rcases List.mem_or_eq_of_mem_set hw with hw | rfl
        · exact hstack w hw
        · rw [BitVec.toNat_add, show BitVec.toNat (2 : Word) = 2 from rfl]
          omega
      · exact hstack

theorem Machine.State.evenFlow_landed {s : State} (h : ∀ w ∈ s.stack.toList, w.toNat % 2 = 0) {v : Nat}
    (hv : v % 2 = 0) (r : Report) : { s with pc := BitVec.ofNat 16 (landing v), out := r }.evenFlow :=
  ⟨by rw [toNat_ofNat_landing]; exact landing_even hv, h⟩

theorem exec_even {i : Instr} {s t : State} (h : s.evenFlow) (ho : i.oddTarget s = false) (he : exec i s = .next t) :
    t.evenFlow := by
  rcases exec_raises_or_completes he with ⟨_, e, rfl⟩ | ⟨_, rfl⟩
  · exact h
  · exact State.evenFlow_landed (Instr.stack_writes_even h) (Instr.target_even h ho) _

theorem Machine.stepOp_even {s t : State} (h : s.evenFlow) (ht : stepOp s = .next t)
    (ho : ∀ i, s.mode = .running → decode s.nextWord = .ok i → i.oddTarget s = false) : t.evenFlow := by
  rcases stepOp_next_cases ht with
    ⟨_, r, rfl⟩ | ⟨_, _, rfl⟩ | ⟨i, hm, _, hd, he⟩ | ⟨_, _, _, _, ⟨_, rfl⟩ | ⟨_, rfl⟩⟩
  · exact h
  · exact h
  · exact exec_even h (ho i hm hd) he
  · exact State.evenFlow_landed h.2 (by rw [Nat.add_mod_right]; exact h.1) _
  · exact h

/-- `power_on` and `reset()` restart `pc` at the origin over a stack of zeros (R210, R211). -/
theorem Machine.powerOnOp_even (cfg : Config) (s : State) : (powerOnOp cfg s).evenFlow :=
  ⟨show BitVec.toNat (0x200 : Word) % 2 = 0 by decide,
    fun w hw => by rw [eq_zero_of_mem_powerOn_stack (cfg := cfg) hw]; decide⟩

theorem Machine.loadProgramOp_even {s : State} (h : s.evenFlow) (bytes : List Byte) :
    (loadProgramOp bytes s).evenFlow := by
  rcases loadProgramOp_cases bytes s with ⟨_, he⟩ | ⟨_, he⟩ <;> rw [he] <;> exact h

theorem Machine.keyDownOp_even {s : State} (h : s.evenFlow) (k : BitVec 4) : (keyDownOp k s).evenFlow := by
  rcases keyDownOp_cases k s with ⟨_, he⟩ | ⟨_, he⟩ <;> rw [he] <;> exact h

/-- Settles O23: an instruction step keeps the parity unless its target is odd, and the other operations leave `pc` and
the stack or restart them. -/
theorem evenPcStaysEven : Obligations.EvenPcStaysEven := by
  intro s t _ h ht ho
  rcases step_next_cases ht with
    ⟨hn, u, hu, rfl⟩ | ⟨cfg, _, _, _, rfl⟩ | ⟨_, _, rfl⟩ | ⟨bytes, _, _, rfl⟩ | ⟨_, _, rfl⟩ | ⟨k, _, _, rfl⟩
  · have hue : u.evenFlow := stepOp_even h hu (fun i => ho i hn)
    exact hue
  · exact powerOnOp_even cfg s
  · exact powerOnOp_even s.cfg s
  · exact loadProgramOp_even h bytes
  · exact h
  · exact keyDownOp_even h k

/-! ### `SetPC` -/

/-- Settles O24: an accepted value lands, as itself or as the origin, and any other is a PC_OVERFLOW. -/
theorem pcWritesFollowTheOverflowPolicy : Obligations.PcWritesFollowTheOverflowPolicy := by
  refine fun s v => ⟨fun hv => ?_, fun hv hw => ?_, fun hv hf => ?_, nextPC_eq s, rfl⟩
  · exact ⟨_, setPC_of_accepts (State.accepts_of_le hv), by rw [toNat_ofNat_landing, landing_of_le hv], rfl⟩
  · have hl : landing v = 0x200 := if_neg (by omega)
    rw [setPC_of_accepts (Or.inr hw), hl]
    rfl
  · exact setPC_of_not_accepts (State.not_accepts_iff.2 ⟨hv, hf⟩)

end Sys2Proof
end

section
/-!
SUPPORT. Memory and the fetch (spec/20_memory.md R40 to R56): which bytes an instruction changes, what Fx55 leaves in
memory, and that the next fetch reads it.
-/

namespace Sys2Proof

open Machine

/-! ### The frame of memory -/

/-- Settles O18: a fault changes no byte, a completed instruction only those of its store window. -/
theorem onlyTheStoredBytesChange : Obligations.OnlyTheStoredBytesChange := by
  intro i s t a h hw
  rcases exec_raises_or_completes h with ⟨_, e, rfl⟩ | ⟨_, rfl⟩
  · rfl
  · exact Instr.writes_mem i s a hw

/-! ### Stored bytes and the fetch -/

/-- An Fx55 whose bytes lie in memory and whose `pc` advance is accepted raises nothing (R124, R181). -/
theorem Instr.faults_stRegs_eq_none {s : State} {x : Reg} (hi : s.i.toNat + x.val ≤ 0xFFF)
    (ha : s.accepts (s.pc.toNat + 2)) : (Instr.stRegs x).faults s = none :=
  Instr.faults_none_iff.2 ⟨if_pos (by omega), ha⟩

/-- Fx55 stores `V[r]` at `I + r` (R124, R45). -/
theorem Instr.byteAt_writes_stRegs {x r : Reg} (s : State) (h : r ≤ x) :
    ((Instr.stRegs x).writes s).byteAt (s.i.toNat + r.val) = s.getV r := by
  have hr : r.val < (s.regsUpTo x).length := by
    rw [State.length_regsUpTo]
    exact Nat.lt_succ_of_le h
  exact (Memory.read_writeBytes_inside hr).trans (State.getD_regsUpTo s h)

/-- A byte of memory depends on the configuration and the memory alone. -/
theorem Machine.State.byteAt_congr {s t : State} (hc : t.cfg = s.cfg) (hm : t.mem = s.mem) (a : Nat) :
    t.byteAt a = s.byteAt a := by
  simp only [State.byteAt, hc, hm]

/-- The word a fetch reads has the byte at the lower address as its high byte (R44, R54). -/
theorem Machine.State.toNat_nextWord (s : State) :
    s.nextWord.toNat = (s.byteAt s.pc.toNat).toNat * 256 + (s.byteAt (s.pc.toNat + 1)).toNat :=
  toNat_wordOfBytes _ _

/-- Settles O47: the two bytes at `pc` are the stored registers, and the fetched word has the lower one on top. -/
theorem storedBytesAreFetchedBigEndian : Obligations.StoredBytesAreFetchedBigEndian := by
  intro s x k k' hi ha hk hx
  refine ⟨_, exec_of_no_fault (Instr.faults_stRegs_eq_none hi ha), fun u hc hm hp => ?_⟩
  have hle : k'.val ≤ x.val := hx
  have stored (r : Reg) (hr : r ≤ x) : u.byteAt (s.i.toNat + r.val) = s.getV r :=
    (State.byteAt_congr (s := (Instr.stRegs x).writes s) hc hm _).trans (Instr.byteAt_writes_stRegs s hr)
  have high : u.byteAt u.pc.toNat = s.getV k := by
    rw [hp]
    exact stored k (show k.val ≤ x.val by omega)
  have low : u.byteAt (u.pc.toNat + 1) = s.getV k' := by
    rw [hp, Nat.add_assoc, ← hk]
    exact stored k' hx
  exact ⟨u.nextWord, fetch_of_range (by omega), by rw [State.toNat_nextWord, high, low]⟩

/-! ### What the next step fetches -/

/-- Settles O7: no second byte follows 0xFFF, so the running machine's step is the fetch fault. -/
theorem fetchAtTheTopFaults : Obligations.FetchAtTheTopFaults := by
  intro s hn hm hp
  have hout : ¬ s.pc.toNat + 1 ≤ 0xFFF := by rw [hp]; decide
  rw [step_of_stepsNext hn, stepOp_running hm, runInstruction_out hout, endOperation_next, hp]

/-- Settles O9: `placeWord` leaves a running machine whose next operation is a step and whose next word is the placed
one. -/
theorem placedWordIsRunNext : Obligations.PlacedWordIsRunNext := by
  intro s op i hd
  rw [State.withFetchWord, tableWord_toNat]
  have running : (placeWord op s).mode = .running := rfl
  have fetched : decode (placeWord op s).nextWord = .ok i := by rw [placeWord_nextWord, hd]
  rw [step_of_stepsNext (placeWord_stepsNext op s), stepOp_running running,
    runInstruction_known (placeWord_pc_le op s) fetched]

end Sys2Proof
end

section
/-!
SUPPORT. The encoding (spec/30_encoding.md): decoding and encoding are inverse, which words are unknown, what a step does
with the word it fetches, and that three instructions alone read the inputs of the step.
-/

namespace Sys2Proof

open Machine

/-! ### Decode of encode -/

/-- Settles O1: row by row, the fields of an encoded word are what was encoded. -/
theorem encodeThenDecodeIsIdentity : Obligations.EncodeThenDecodeIsIdentity
  | .cls => Laws.RoundTrip.cls
  | .ret => Laws.RoundTrip.ret
  | .jp nnn => Laws.RoundTrip.jp nnn
  | .call nnn => Laws.RoundTrip.call nnn
  | .seByte x kk => Laws.RoundTrip.seByte x kk
  | .sneByte x kk => Laws.RoundTrip.sneByte x kk
  | .seReg x y => Laws.RoundTrip.seReg x y
  | .ldByte x kk => Laws.RoundTrip.ldByte x kk
  | .addByte x kk => Laws.RoundTrip.addByte x kk
  | .ldReg x y => Laws.RoundTrip.ldReg x y
  | .orReg x y => Laws.RoundTrip.orReg x y
  | .andReg x y => Laws.RoundTrip.andReg x y
  | .xorReg x y => Laws.RoundTrip.xorReg x y
  | .addReg x y => Laws.RoundTrip.addReg x y
  | .sub x y => Laws.RoundTrip.sub x y
  | .shr x y => Laws.RoundTrip.shr x y
  | .subn x y => Laws.RoundTrip.subn x y
  | .shl x y => Laws.RoundTrip.shl x y
  | .sneReg x y => Laws.RoundTrip.sneReg x y
  | .ldI nnn => Laws.RoundTrip.ldI nnn
  | .jpV0 nnn => Laws.RoundTrip.jpV0 nnn
  | .rnd x kk => Laws.RoundTrip.rnd x kk
  | .drw x y n => Laws.RoundTrip.drw x y n
  | .skp x => Laws.RoundTrip.skp x
  | .sknp x => Laws.RoundTrip.sknp x
  | .ldVxDT x => Laws.RoundTrip.ldVxDT x
  | .ldVxK x => Laws.RoundTrip.ldVxK x
  | .ldDTVx x => Laws.RoundTrip.ldDTVx x
  | .ldSTVx x => Laws.RoundTrip.ldSTVx x
  | .addI x => Laws.RoundTrip.addI x
  | .ldF x => Laws.RoundTrip.ldF x
  | .ldB x => Laws.RoundTrip.ldB x
  | .stRegs x => Laws.RoundTrip.stRegs x
  | .ldRegs x => Laws.RoundTrip.ldRegs x

/-- Settles O4: the words are closed terms, and the decoder computes. -/
theorem sampleWordsDecode : Obligations.SampleWordsDecode :=
  ⟨rfl, rfl, rfl, rfl, rfl, rfl, rfl, rfl⟩

/-! ### A word as the encoding of its fields, its fixed fields given -/

section
variable {op : Word} {f n : BitVec 4} {kk : Byte}

theorem encNNN_of_family (hf : family op = f) : encNNN f (fieldNNN op) = op := by
  rw [← hf, encNNN_fields]

theorem encXKK_of_family (hf : family op = f) : encXKK f (fieldX op) (fieldKK op) = op := by
  rw [← hf, encXKK_fields]

theorem encXKK_of_fixed (hf : family op = f) (hk : fieldKK op = kk) : encXKK f (fieldX op) kk = op := by
  rw [← hk, encXKK_of_family hf]

theorem encXYN_of_fixed (hf : family op = f) (hn : fieldN op = n) : encXYN f (fieldX op) (fieldY op) n = op := by
  rw [← hf, ← hn, encXYN_fields]

end

/-! ### Encode of decode -/

theorem decode0_ok {op : Word} {i : Instr} (h : decode0 op = .ok i) : i.WellFormed ∧ encode i = op := by
  unfold decode0 at h
  split at h
  case isTrue hop => cases h; exact ⟨rfl, hop.symm⟩
  split at h
  case isTrue hop => cases h; exact ⟨rfl, hop.symm⟩
  case isFalse => cases h

theorem decodeN0_ok {op : Word} {i j : Instr} {u : Unknown} (h : decodeN0 op j u = .ok i) :
    fieldN op = 0x0 ∧ i = j := by
  unfold decodeN0 at h
  split at h
  case isTrue hn => exact ⟨hn, (Except.ok.inj h).symm⟩
  case isFalse => cases h

theorem decode8_ok {op : Word} {i : Instr} (hf : family op = 0x8) (h : decode8 op = .ok i) :
    i.WellFormed ∧ encode i = op := by
  unfold decode8 at h
  split at h <;> cases h
  all_goals exact ⟨rfl, encXYN_of_fixed hf (by assumption)⟩

theorem decodeE_ok {op : Word} {i : Instr} (hf : family op = 0xE) (h : decodeE op = .ok i) :
    i.WellFormed ∧ encode i = op := by
  unfold decodeE at h
  split at h <;> cases h
  all_goals exact ⟨rfl, encXKK_of_fixed hf (by assumption)⟩

theorem decodeF_ok {op : Word} {i : Instr} (hf : family op = 0xF) (h : decodeF op = .ok i) :
    i.WellFormed ∧ encode i = op := by
  unfold decodeF at h
  split at h <;> cases h
  all_goals exact ⟨rfl, encXKK_of_fixed hf (by assumption)⟩

theorem drw_fields_wellFormed (x y : Reg) (op : Word) : (Instr.drw x y (fieldN op).toNat).WellFormed :=
  decide_eq_true (Nat.le_of_lt_succ (fieldN op).isLt)

theorem encode_drw_fields {op : Word} (hf : family op = 0xD) :
    encode (.drw (fieldX op) (fieldY op) (fieldN op).toNat) = op := by
  rw [encode, BitVec.ofNat_toNat, BitVec.setWidth_eq, encXYN_of_fixed hf rfl]

/-- What `decode` does with a word (R64): six families try a table of their own, in the others every word is the
encoding of an instruction. -/
theorem decode_cases (op : Word) :
    (family op = 0x0 ∧ decode op = decode0 op) ∨
    (family op = 0x5 ∧ decode op = decodeN0 op (.seReg (fieldX op) (fieldY op)) .family5) ∨
    (family op = 0x8 ∧ decode op = decode8 op) ∨
    (family op = 0x9 ∧ decode op = decodeN0 op (.sneReg (fieldX op) (fieldY op)) .family9) ∨
    (family op = 0xE ∧ decode op = decodeE op) ∨
    (family op = 0xF ∧ decode op = decodeF op) ∨
    (family op ∉ [0x0, 0x5, 0x8, 0x9, 0xE, 0xF] ∧ ∃ i, decode op = .ok i ∧ i.WellFormed ∧ encode i = op) := by
  generalize hd : decode op = d
  unfold decode at hd
  split at hd
  case h_1 hf => exact .inl ⟨hf, hd.symm⟩
  case h_6 hf => exact .inr (.inl ⟨hf, hd.symm⟩)
  case h_9 hf => exact .inr (.inr (.inl ⟨hf, hd.symm⟩))
  case h_10 hf => exact .inr (.inr (.inr (.inl ⟨hf, hd.symm⟩)))
  case h_15 hf => exact .inr (.inr (.inr (.inr (.inl ⟨hf, hd.symm⟩))))
  case h_16 =>
    have hf : family op = 0xF := by
      simp only [BitVec.toNat_eq, imp_false] at *
      bv_omega
    exact .inr (.inr (.inr (.inr (.inr (.inl ⟨hf, hd.symm⟩)))))
  all_goals
    rename_i hf
    refine .inr (.inr (.inr (.inr (.inr (.inr ⟨by rw [hf]; decide, _, hd.symm, ?_⟩)))))
  case h_2 | h_3 | h_11 | h_12 => exact ⟨rfl, encNNN_of_family hf⟩
  case h_4 | h_5 | h_7 | h_8 | h_13 => exact ⟨rfl, encXKK_of_family hf⟩
  case h_14 => exact ⟨drw_fields_wellFormed _ _ op, encode_drw_fields hf⟩

/-- Settles O2: in every family the fixed bits that the decoder tested and the fields that it read make up the word. -/
theorem decodedWordIsItsEncoding : Obligations.DecodedWordIsItsEncoding := by
  intro op i h
  rcases decode_cases op with
    ⟨_, hd⟩ | ⟨hf, hd⟩ | ⟨hf, hd⟩ | ⟨hf, hd⟩ | ⟨hf, hd⟩ | ⟨hf, hd⟩ | ⟨_, j, hd, hj⟩ <;> rw [hd] at h
  · exact decode0_ok h
  · obtain ⟨hn, rfl⟩ := decodeN0_ok h
    exact ⟨rfl, encXYN_of_fixed hf hn⟩
  · exact decode8_ok hf h
  · obtain ⟨hn, rfl⟩ := decodeN0_ok h
    exact ⟨rfl, encXYN_of_fixed hf hn⟩
  · exact decodeE_ok hf h
  · exact decodeF_ok hf h
  · cases h
    exact hj

/-! ### The unknown words -/

/-- The family of a class of unknown words (R65). -/
def Unknown.top : Unknown → Nat
  | .family0 => 0x0
  | .family5 => 0x5
  | .family8 => 0x8
  | .family9 => 0x9
  | .familyE => 0xE
  | .familyF => 0xF

/-- That a word of the class's family matches no row of R63, as R65 lists it. -/
def Unknown.NoRow (op : Word) : Unknown → Prop
  | .family0 => op.toNat ≠ 0x00E0 ∧ op.toNat ≠ 0x00EE
  | .family5 | .family9 => op.toNat % 0x10 ≠ 0
  | .family8 => op.toNat % 0x10 ∈ [0x8, 0x9, 0xA, 0xB, 0xC, 0xD, 0xF]
  | .familyE => op.toNat % 0x100 ∉ [0x9E, 0xA1]
  | .familyF => op.toNat % 0x100 ∉ [0x07, 0x0A, 0x15, 0x18, 0x1E, 0x29, 0x33, 0x55, 0x65]

theorem Unknown.top_injective : Function.Injective Unknown.top := by
  intro u v
  cases u <;> cases v <;> simp [Unknown.top]

/-- The families with unknown words are those that try a table of their own. -/
theorem Unknown.mem_of_top {f : BitVec 4} {u : Unknown} (h : f.toNat = u.top) :
    f ∈ [0x0, 0x5, 0x8, 0x9, 0xE, 0xF] := by
  revert f
  cases u <;> decide

section
variable (op : Word) (u : Unknown)

theorem decode0_error_iff : decode0 op = .error u ↔ u = .family0 ∧ Unknown.NoRow op .family0 := by
  have hcls : op.toNat = 0x00E0 ↔ op = 0x00E0 := BitVec.toNat_inj (y := 0x00E0)
  have hret : op.toNat = 0x00EE ↔ op = 0x00EE := BitVec.toNat_inj (y := 0x00EE)
  simp only [decode0, Unknown.NoRow, ne_eq, hcls, hret]
  split
  case isTrue h => simp [h]
  split
  case isTrue h => simp [h]
  case isFalse h0 h => exact ⟨fun he => ⟨(Except.error.inj he).symm, h0, h⟩, fun he => he.1 ▸ rfl⟩

theorem decodeN0_error_iff (i : Instr) (v : Unknown) :
    decodeN0 op i v = .error u ↔ u = v ∧ op.toNat % 0x10 ≠ 0 := by
  have hn : op.toNat % 0x10 = 0 ↔ fieldN op = 0x0 := by
    rw [← toNat_fieldN]
    exact BitVec.toNat_inj (y := 0x0)
  rw [decodeN0, ne_eq, hn]
  split
  case isTrue h => simp [h]
  case isFalse h => exact ⟨fun he => ⟨(Except.error.inj he).symm, h⟩, fun he => he.1 ▸ rfl⟩

theorem decode8_error_iff : decode8 op = .error u ↔ u = .family8 ∧ Unknown.NoRow op .family8 := by
  unfold decode8
  split
  case h_10 =>
    have hrow : Unknown.NoRow op .family8 := by
      have hlt := (fieldN op).isLt
      simp only [Unknown.NoRow, ← toNat_fieldN, BitVec.toNat_eq, imp_false, List.mem_cons, List.not_mem_nil,
        or_false] at *
      bv_omega
    simp [hrow, eq_comm]
  all_goals
    rename_i hn
    simp [Unknown.NoRow, ← toNat_fieldN, hn]

theorem decodeE_error_iff : decodeE op = .error u ↔ u = .familyE ∧ Unknown.NoRow op .familyE := by
  unfold decodeE
  split
  case h_3 =>
    have hrow : Unknown.NoRow op .familyE := by
      simp only [Unknown.NoRow, ← toNat_fieldKK, BitVec.toNat_eq, imp_false, List.mem_cons, List.not_mem_nil,
        or_false] at *
      bv_omega
    simp [hrow, eq_comm]
  all_goals
    rename_i hk
    simp [Unknown.NoRow, ← toNat_fieldKK, hk]

theorem decodeF_error_iff : decodeF op = .error u ↔ u = .familyF ∧ Unknown.NoRow op .familyF := by
  unfold decodeF
  split
  case h_10 =>
    have hrow : Unknown.NoRow op .familyF := by
      simp only [Unknown.NoRow, ← toNat_fieldKK, BitVec.toNat_eq, imp_false, List.mem_cons, List.not_mem_nil,
        or_false] at *
      bv_omega
    simp [hrow, eq_comm]
  all_goals
    rename_i hk
    simp [Unknown.NoRow, ← toNat_fieldKK, hk]

/-- A table that refuses with the one class of its family refuses with `u` exactly in the family of `u`. -/
theorem error_iff_of_table {r : Except Unknown Instr} {v : Unknown} (hv : (family op).toNat = v.top)
    (hr : r = .error u ↔ u = v ∧ v.NoRow op) : r = .error u ↔ (family op).toNat = u.top ∧ u.NoRow op := by
  rw [hr, hv, Unknown.top_injective.eq_iff, eq_comm (a := v)]
  exact and_congr_right fun h => by rw [h]

/-- The unknown words of a class: those of its family that match no row (R65). -/
theorem decode_error_iff : decode op = .error u ↔ op.toNat / 0x1000 = u.top ∧ u.NoRow op := by
  rw [← toNat_family]
  rcases decode_cases op with
    ⟨hf, hd⟩ | ⟨hf, hd⟩ | ⟨hf, hd⟩ | ⟨hf, hd⟩ | ⟨hf, hd⟩ | ⟨hf, hd⟩ | ⟨hf, j, hd, _⟩ <;> rw [hd]
  · exact error_iff_of_table op u (by rw [hf]; rfl) (decode0_error_iff op u)
  · exact error_iff_of_table op u (by rw [hf]; rfl) (decodeN0_error_iff op u _ .family5)
  · exact error_iff_of_table op u (by rw [hf]; rfl) (decode8_error_iff op u)
  · exact error_iff_of_table op u (by rw [hf]; rfl) (decodeN0_error_iff op u _ .family9)
  · exact error_iff_of_table op u (by rw [hf]; rfl) (decodeE_error_iff op u)
  · exact error_iff_of_table op u (by rw [hf]; rfl) (decodeF_error_iff op u)
  · have hu : (family op).toNat ≠ u.top := fun h => hf (Unknown.mem_of_top h)
    simp [hu]

end

/-- Settles O3: `decode_error_iff` for each class, whose right side is R65 in numbers. -/
theorem unknownWordsAreExactlyTheListed : Obligations.UnknownWordsAreExactlyTheListed := fun op =>
  ⟨decode_error_iff op .family0, decode_error_iff op .family5, decode_error_iff op .family8,
    decode_error_iff op .family9, decode_error_iff op .familyE, decode_error_iff op .familyF⟩

/-! ### What a step does with the word it fetches -/

/-- Settles O5: a running machine that can fetch executes what it decodes. -/
theorem stepExecutesTheDecodedInstruction : Obligations.StepExecutesTheDecodedInstruction := by
  intro s i hn hm hp hd _
  rw [step_of_stepsNext hn, stepOp_running hm, runInstruction_known hp hd]

/-- Settles O6: the step is the no-op of R65, which either advances `pc` or is refused by the overflow policy. -/
theorem unknownOpcodeIsAReportedNoOp : Obligations.UnknownOpcodeIsAReportedNoOp := by
  intro s u hn hm hp hd
  rw [step_of_stepsNext hn, stepOp_running hm, runInstruction_unknown hp hd]
  rcases execUnknown_spec s.nextWord s with ⟨ha, he⟩ | ⟨ha, he⟩
  · exact ⟨fun _ => by rw [he, endOperation_next], fun hna => absurd ha hna⟩
  · have hinfo : BitVec.ofNat 16 (s.pc.toNat + 2) = s.pc + 2 := by bv_omega
    exact ⟨fun h => absurd h ha, fun _ => by rw [he, endOperation_next, hinfo]⟩

/-- Settles O8: neither mode reaches the fetch. -/
theorem stepOutsideRunningChangesNothing : Obligations.StepOutsideRunningChangesNothing := by
  intro s hn
  rw [step_of_stepsNext hn]
  exact ⟨fun hm => by rw [stepOp_awaitKey hm, endOperation_next], fun hm => by rw [stepOp_faulted hm, endOperation_next]⟩

/-! ### Who reads the inputs of a step -/

/-- The state with other operations pending and another count of them, hence with other `keys` and `rnd` (R112, R160). -/
def Machine.State.withQueue (s : State) (ops : List Operation) (k : Nat) : State := { s with pending := ops, tick := k }

section
variable {i : Instr} (s : State) (ops : List Operation) (k : Nat)

theorem Instr.trap_withQueue : i.trap (s.withQueue ops k) = i.trap s := by
  cases i <;> rfl

theorem Machine.State.raise_withQueue (e : Trap) : (s.withQueue ops k).raise e = (s.raise e).withQueue ops k := rfl

/-- Only the two key skips choose their target by an input. -/
theorem Instr.target_withQueue (hskp : ∀ x, i ≠ .skp x) (hsknp : ∀ x, i ≠ .sknp x) :
    i.target (s.withQueue ops k) = i.target s := by
  cases i
  case skp x => exact absurd rfl (hskp x)
  case sknp x => exact absurd rfl (hsknp x)
  all_goals rfl

/-- Only Cxkk writes an input. -/
theorem Instr.writes_withQueue (hrnd : ∀ x kk, i ≠ .rnd x kk) :
    i.writes (s.withQueue ops k) = (i.writes s).withQueue ops k := by
  cases i
  case rnd x kk => exact absurd rfl (hrnd x kk)
  case call nnn =>
    have hsp : (s.withQueue ops k).sp = s.sp := rfl
    simp only [Instr.writes, hsp]
    split <;> rfl
  all_goals rfl

theorem Machine.State.finish_withQueue (u : State) (v : Nat) :
    (s.withQueue ops k).finish (u.withQueue ops k) v = (s.finish u v).withQueue ops k := by
  by_cases h : s.accepts v
  · rw [State.finish_of_accepts h]
    exact State.finish_of_accepts h
  · rw [State.finish_overflow h]
    exact State.finish_overflow h

end

/-- Settles O22: trap, target and writes do not look at the queue, and what is answered keeps it. -/
theorem onlyThreeInstructionsReadTheInputs : Obligations.OnlyThreeInstructionsReadTheInputs := by
  intro i s t ops k hskp hsknp hrnd h
  change exec i (s.withQueue ops k) = .next (t.withQueue ops k)
  rw [exec_eq] at h ⊢
  rw [← Host.Outcome.next.inj h, Instr.trap_withQueue]
  cases i.trap s with
  | some e => rfl
  | none =>
    simp only [Instr.target_withQueue s ops k hskp hsknp, Instr.writes_withQueue s ops k hrnd, State.finish_withQueue]

end Sys2Proof
end

section
/-!
SUPPORT. Control transfer (spec/40_control_flow.md): what each jump, call, return and compare-and-skip answers, and that a
RET undoes a CALL.
-/

namespace Sys2Proof

open Machine

variable {s : State} {nnn : BitVec 12}

/-! ### Jumps -/

/-- Every 12-bit address is accepted, under both policies (R17). -/
theorem Machine.State.accepts_nnn : s.accepts nnn.toNat :=
  State.accepts_of_le (by have := nnn.isLt; omega)

theorem Machine.landing_toNat_nnn : landing nnn.toNat = nnn.toNat :=
  landing_of_le (by have := nnn.isLt; omega)

/-- Settles O25: the jump has no own fault and writes nothing but an accepted `pc`. -/
theorem jumpSetsPc : Obligations.JumpSetsPc := by
  intro s nnn
  exact ⟨_, exec_of_no_fault (Instr.faults_none_iff.2 ⟨rfl, State.accepts_nnn⟩),
    (toNat_ofNat_landing _).trans landing_toNat_nnn, rfl⟩

/-- Settles O28: the instruction is one `SetPC` of the sum, which is accepted or refused. -/
theorem jumpV0AddsRegisterZero : Obligations.JumpV0AddsRegisterZero := by
  intro s nnn
  rw [exec_jpV0, execJpV0]
  exact ⟨fun ha => ⟨_, commit_setPC ha, toNat_ofNat_landing _, rfl⟩, commit_setPC_overflow⟩

/-! ### The call stack -/

/-- The state after a CALL below depth 16: `pc + 2` is pushed as it is, and `pc` is the target (R82). -/
def Machine.State.called (s : State) (nnn : BitVec 12) (h : s.sp.val < 16) : State :=
  { s with pc := zext12 nnn, stack := s.stack.set s.sp.val (s.pc + 2) h, sp := ⟨s.sp.val + 1, by omega⟩, out := .done }

theorem exec_call_of_lt (h : s.sp.val < 16) : exec (.call nnn) s = .next (s.called nnn h) := by
  rw [exec_call, execCall, push_of_lt _ h]
  exact commit_ok _ _

/-- CALL writes the entry at the old depth and no other (R19). -/
theorem getElem_called_stack (nnn : BitVec 12) (h : s.sp.val < 16) (k : Fin 16) :
    (s.called nnn h).stack[k.val] = if k.val = s.sp.val then s.pc + 2 else s.stack[k.val] := by
  rw [State.called, Vector.getElem_set]
  simp only [eq_comm]

theorem exec_call_full (h : s.sp.val = 16) : exec (.call nnn) s = .next (s.raise ⟨.stackOverflow, s.pc⟩) := by
  rw [exec_call, execCall, push_full _ (by omega)]
  exact commit_error _ _

/-- RET with `S[k]` on top, its value accepted: `SP` is `k`, `pc` where the value lands, and the entry stays (R80, D9). -/
theorem exec_ret_of_top {k : Fin 16} (hk : s.sp.val = k.val + 1) (ha : s.accepts s.stack[k.val].toNat) : exec .ret s =
    .next { s with pc := BitVec.ofNat 16 (landing s.stack[k.val].toNat), sp := k.castSucc, out := .done } := by
  have top : s.sp.val - 1 = k.val := by omega
  rw [exec_ret, execRet, pop_of_pos (by omega)]
  simp only [top]
  exact commit_setPC ha

/-- A popped address is where `pc` goes, whatever the policy (R17). -/
theorem exec_ret_of_address {k : Fin 16} (hk : s.sp.val = k.val + 1) (ha : s.stack[k.val].toNat ≤ 0xFFF) :
    exec .ret s = .next { s with pc := s.stack[k.val], sp := k.castSucc, out := .done } := by
  rw [exec_ret_of_top hk (State.accepts_of_le ha), landing_of_le ha, BitVec.ofNat_toNat, BitVec.setWidth_eq]

theorem exec_ret_empty (h : s.sp.val = 0) : exec .ret s = .next (s.raise ⟨.stackUnderflow, s.pc⟩) := by
  rw [exec_ret, execRet, pop_empty (by omega)]
  exact commit_error _ _

/-- Settles O26: a push that has room, or the overflow of the stack. -/
theorem callPushesTheReturnAddress : Obligations.CallPushesTheReturnAddress := by
  intro s nnn
  exact ⟨fun h => ⟨_, exec_call_of_lt h, toNat_zext12 nnn, rfl, getElem_called_stack nnn h, rfl⟩, exec_call_full⟩

/-- Settles O27: a pop of the top entry, or the underflow of the stack. -/
theorem returnPopsThePc : Obligations.ReturnPopsThePc := by
  intro s
  exact ⟨fun k hk ha => ⟨_, exec_ret_of_top hk ha, toNat_ofNat_landing _, rfl, rfl⟩, exec_ret_empty⟩

/-! ### CALL, then RET -/

/-- A running machine with nothing pending performs the instruction it fetches as its whole step (R66). -/
theorem Machine.step_of_exec {i : Instr} {t : State} (hp : s.pending = []) (hm : s.mode = .running)
    (hpc : s.pc.toNat + 1 ≤ 0xFFF) (hd : decode s.nextWord = .ok i) (he : exec i s = .next t) :
    step s = .next t.endOp := by
  rw [step_of_stepsNext (stepsNext_of_nil hp), stepOp_running hm, runInstruction_known hpc hd, he, endOperation_next]

/-- Settles O31: CALL leaves `pc + 2`, an address, on top of the stack, and the RET at its target pops it. -/
theorem callThenReturnRestoresPc : Obligations.CallThenReturnRestoresPc := by
  intro s nnn hp hm hsp hpc hcall hn hret
  have idle : (s.called nnn hsp).endOp.pending = [] := congrArg List.tail hp
  have target : (s.called nnn hsp).endOp.pc.toNat = nnn.toNat := toNat_zext12 nnn
  have pushed : (s.called nnn hsp).endOp.stack[s.sp.val] = s.pc + 2 :=
    (getElem_called_stack nnn hsp ⟨s.sp.val, hsp⟩).trans (if_pos rfl)
  have address : (s.called nnn hsp).endOp.stack[s.sp.val].toNat ≤ 0xFFF := by rw [pushed]; bv_omega
  have fetched : decode (s.called nnn hsp).endOp.nextWord = .ok .ret := by rw [State.nextWord, target]; exact hret
  have call : step s = .next (s.called nnn hsp).endOp := step_of_exec hp hm (by omega) hcall (exec_call_of_lt hsp)
  have ret := step_of_exec idle hm (by rw [target]; exact hn) fetched
    (exec_ret_of_address (s := (s.called nnn hsp).endOp) (k := ⟨s.sp.val, hsp⟩) rfl address)
  refine ⟨_, _, call, ret, pushed, ?_⟩
  simp [State.endOp, State.called, hp]

/-! ### Compare and skip -/

/-- A conditional skip does what `SetPC` of `pc + 4` or `pc + 2` does (R16, R88). -/
theorem Machine.commit_skipIf_decide (c : Prop) [Decidable c] (s : State) :
    (∀ p, setPC (s.pc.toNat + (if c then 4 else 2)) s = .ok p →
      ∃ t, commit s (skipIf (decide c) s) = .next t ∧ t.pc = p.pc ∧ t = { s with pc := t.pc, out := t.out }) ∧
    (∀ e, setPC (s.pc.toNat + (if c then 4 else 2)) s = .error e →
      commit s (skipIf (decide c) s) = .next (s.raise e)) := by
  simp only [skipIf_eq, decide_eq_true_eq]
  refine ⟨fun p hok => ?_, fun e herr => by rw [herr, commit_error]⟩
  obtain ⟨ha, rfl⟩ := setPC_ok hok
  exact ⟨_, commit_setPC ha, rfl, rfl⟩

/-- Settles O29: each of the four is a conditional skip on its own comparison. -/
theorem skipsCompareAndSkip : Obligations.SkipsCompareAndSkip := by
  intro s x y kk
  obtain ⟨seByteOk, seByteErr⟩ := commit_skipIf_decide (s.getV x = kk) s
  obtain ⟨sneByteOk, sneByteErr⟩ := commit_skipIf_decide (s.getV x ≠ kk) s
  obtain ⟨seRegOk, seRegErr⟩ := commit_skipIf_decide (s.getV x = s.getV y) s
  obtain ⟨sneRegOk, sneRegErr⟩ := commit_skipIf_decide (s.getV x ≠ s.getV y) s
  exact ⟨seByteOk, seByteErr, sneByteOk, sneByteErr, seRegOk, seRegErr, sneRegOk, sneRegErr⟩

end Sys2Proof
end

section
/-!
SUPPORT. Loads, the ALU and the random byte (spec/41_load_alu.md): what each instruction leaves in `V[x]` and in `VF`.
-/

namespace Sys2Proof

open Machine

variable {s : State} {x y : Reg} {b c : Byte} {m n : Nat}

/-! ### Results and operands -/

theorem Machine.toNat_byte_sub (a b : Byte) : (a - b).toNat = (a.toNat + 256 - b.toNat) % 256 := by
  have := b.isLt
  rw [BitVec.toNat_sub]
  congr 1
  omega

theorem Machine.toNat_byte_shr (a : Byte) : (a >>> 1).toNat = a.toNat / 2 := by
  rw [BitVec.toNat_ushiftRight, Nat.shiftRight_eq_div_pow, Nat.pow_one]

theorem Machine.toNat_byte_shl (a : Byte) : (a <<< 1).toNat = a.toNat * 2 % 256 := by
  rw [BitVec.toNat_shiftLeft, Nat.shiftLeft_eq, Nat.pow_one]

/-- The operand of the two shifts, as `cfg.SHIFT_SOURCE` names it (D18). -/
theorem Machine.State.shiftOperand_eq (s : State) (x y : Reg) :
    s.shiftOperand x y = if s.cfg.shiftSource = .vx then s.getV x else s.getV y := by
  unfold State.shiftOperand
  cases s.cfg.shiftSource <;> rfl

theorem Machine.State.rnd_of_pending {keys : BitVec 16} {r : Byte} {rest : List Operation}
    (hp : s.pending = .step keys r :: rest) : s.rnd = r := by
  rw [State.rnd, hp]

/-! ### The write of the registers -/

/-- `V[x] <- b; NextPC()`, in the two outcomes of `NextPC()` (R48, R182). -/
theorem Machine.commit_setV_nextPC (s : State) (x : Reg) (b : Byte) :
    (∀ p, nextPC s = .ok p → ∃ t, commit s (nextPC (s.setV x b)) = .next t ∧
      t.getV x = b ∧ t.pc = p.pc ∧ s.changedOnlyRegs t [x]) ∧
    (∀ e, nextPC s = .error e → commit s (nextPC (s.setV x b)) = .next (s.raise e)) := by
  refine ⟨fun p hp => ?_, fun e he => commit_nextPC_error he rfl rfl⟩
  obtain ⟨t, ht, value, advanced, frame⟩ := commit_setV x b (nextPC_ok hp).1
  exact ⟨t, ht, value, advanced.pc_of_nextPC hp, frame⟩

/-- Below `VF`, the result and the flag are both kept, here as numbers. -/
theorem Machine.commit_result_flag (hx : x ≠ vf) (h : s.accepts (s.pc.toNat + 2)) (hb : b.toNat = m)
    (hc : c.toNat = n) : ∃ t, commit s (nextPC (s.setResultAndFlag x b c)) = .next t ∧
      (t.getV x).toNat = m ∧ (t.getV vf).toNat = n ∧ s.advancedTo t ∧ s.changedOnlyRegs t [x, vf] := by
  obtain ⟨t, ht, result, flag, advanced, frame⟩ := commit_setResultAndFlag x b c h
  exact ⟨t, ht, by rw [result hx, hb], by rw [flag, hc], advanced, frame⟩

/-- In `VF` itself only the flag is kept (R113). -/
theorem Machine.commit_flag_over_result (b : Byte) (h : s.accepts (s.pc.toNat + 2)) (hc : c.toNat = n) :
    ∃ t, commit s (nextPC (s.setResultAndFlag vf b c)) = .next t ∧
      (t.getV vf).toNat = n ∧ s.advancedTo t ∧ s.changedOnlyRegs t [vf] := by
  obtain ⟨t, ht, _, flag, advanced, others, rest⟩ := commit_setResultAndFlag vf b c h
  exact ⟨t, ht, by rw [flag, hc], advanced, fun r hr => others r (by simpa using hr), rest⟩

/-! ### Loads -/

/-- Settles O33: the byte written is `kk`. -/
theorem loadByteSetsTheRegister : Obligations.LoadByteSetsTheRegister := by
  intro s x kk
  rw [exec_ldByte, execLdByte]
  exact commit_setV_nextPC s x kk

/-- Settles O34: the byte written is `V[y]`. -/
theorem loadRegisterCopies : Obligations.LoadRegisterCopies := by
  intro s x y
  rw [exec_ldReg, execLdReg]
  exact commit_setV_nextPC s x (s.getV y)

/-! ### Arithmetic and logic without a flag -/

/-- Settles O35: each of the four is one register write, whose byte is the sum or acts bit by bit. -/
theorem unflaggedArithmeticWritesOnlyVx : Obligations.UnflaggedArithmeticWritesOnlyVx := by
  intro s x y kk h
  rw [exec_addByte, execAddByte, exec_orReg, execOrReg, exec_andReg, execAndReg, exec_xorReg, execXorReg]
  refine ⟨?addByte, ?orReg, ?andReg, ?xorReg⟩
  case addByte =>
    obtain ⟨t, ht, value, rest⟩ := commit_setV x (s.getV x + kk) h
    exact ⟨t, ht, by rw [value, BitVec.toNat_add], rest⟩
  case orReg =>
    obtain ⟨t, ht, value, rest⟩ := commit_setV x (s.getV x ||| s.getV y) h
    exact ⟨t, ht, fun j => by rw [value, BitVec.getLsbD_or], rest⟩
  case andReg =>
    obtain ⟨t, ht, value, rest⟩ := commit_setV x (s.getV x &&& s.getV y) h
    exact ⟨t, ht, fun j => by rw [value, BitVec.getLsbD_and], rest⟩
  case xorReg =>
    obtain ⟨t, ht, value, rest⟩ := commit_setV x (s.getV x ^^^ s.getV y) h
    exact ⟨t, ht, fun j => by rw [value, BitVec.getLsbD_xor], rest⟩

/-- Settles O40: the byte written is the step's random byte, masked. -/
theorem randomByteIsMasked : Obligations.RandomByteIsMasked := by
  intro s x kk h
  rw [exec_rnd, execRnd]
  obtain ⟨t, ht, value, rest⟩ := commit_setV x (s.rnd &&& kk) h
  refine ⟨t, ht, fun keys r ops hp => ?_, fun j hj => ?_, rest⟩
  · rw [value, State.rnd_of_pending hp]
  · rw [value, BitVec.getLsbD_and, hj, Bool.and_false]

/-! ### Arithmetic and shifts with a flag -/

/-- Settles O36: the result is the sum of bytes, the flag its carry. -/
theorem addSetsSumAndCarry : Obligations.AddSetsSumAndCarry := by
  intro s x y hx h
  rw [exec_addReg, execAddReg]
  exact commit_result_flag hx h (BitVec.toNat_add _ _) (toNat_carryFlag _ _)

/-- Settles O37: the two subtractions differ only in which operand is the minuend. -/
theorem subtractionsSetDifferenceAndNotBorrow : Obligations.SubtractionsSetDifferenceAndNotBorrow := by
  intro s x y hx h
  rw [exec_sub, execSub, exec_subn, execSubn]
  exact ⟨commit_result_flag hx h (toNat_byte_sub _ _) (toNat_notBorrowFlag _ _),
    commit_result_flag hx h (toNat_byte_sub _ _) (toNat_notBorrowFlag _ _)⟩

/-- Settles O38: both shifts act on the operand that the configuration names. -/
theorem shiftsSetResultAndShiftedOutBit : Obligations.ShiftsSetResultAndShiftedOutBit := by
  intro s x y a hx h ha
  rw [exec_shr, execShr, exec_shl, execShl, State.shiftOperand_eq, ← ha]
  exact ⟨commit_result_flag hx h (toNat_byte_shr a) (toNat_shrFlag a),
    commit_result_flag hx h (toNat_byte_shl a) (toNat_shlFlag a)⟩

/-- Settles O39: in all five the flag is written over the result. -/
theorem flagIsWrittenLast : Obligations.FlagIsWrittenLast := by
  intro s y a h ha
  rw [exec_addReg, execAddReg, exec_sub, execSub, exec_subn, execSubn, exec_shr, execShr, exec_shl, execShl,
    State.shiftOperand_eq, ← ha]
  exact ⟨commit_flag_over_result _ h (toNat_carryFlag _ _), commit_flag_over_result _ h (toNat_notBorrowFlag _ _),
    commit_flag_over_result _ h (toNat_notBorrowFlag _ _), commit_flag_over_result _ h (toNat_shrFlag a),
    commit_flag_over_result _ h (toNat_shlFlag a)⟩

end Sys2Proof
end

section
/-!
SUPPORT. The address register and the memory instructions (spec/42_index_memory.md): what each leaves in `I`, in memory or in
the registers, and that an Fx65 loads what an Fx55 stored.
-/

namespace Sys2Proof

open Machine

variable {s : State} {x : Reg}

/-! ### The address register -/

/-- The sum of Fx1E, masked to an address (R121). -/
theorem Machine.State.toNat_indexSum (s : State) (x : Reg) :
    (s.indexSum x).toNat = (s.i.toNat + (s.getV x).toNat) % 4096 := by
  rw [State.indexSum, BitVec.toNat_ofNat]
  omega

/-- The glyph address of Fx29, masked to an address (R122). -/
theorem Machine.toNat_glyphAddress (cfg : Config) (d : BitVec 4) :
    (glyphAddress cfg d).toNat = (cfg.fontBase + cfg.fontStride * d.toNat) % 4096 := by
  rw [glyphAddress, BitVec.toNat_ofNat]
  omega

/-- An instruction whose one write is `I <- w` completes with it (R13). -/
theorem Machine.commit_setI (w : Word) (h : s.accepts (s.pc.toNat + 2)) :
    ∃ t, commit s (nextPC { s with i := w }) = .next t ∧ t.i = w ∧ s.advancedTo t ∧
      t = { s with i := t.i, pc := t.pc, out := .done } :=
  ⟨_, commit_advance rfl rfl h, rfl, ⟨toNat_ofNat_landing _, rfl⟩, rfl⟩

/-- Settles O41: the write of `I` is committed with `NextPC()`, or neither is. -/
theorem loadIndexSetsI : Obligations.LoadIndexSetsI := by
  intro s nnn
  rw [exec_ldI, execLdI]
  refine ⟨fun p hp => ?_, fun e he => commit_nextPC_error he rfl rfl⟩
  obtain ⟨t, ht, value, advanced, frame⟩ := commit_setI (zext12 nnn) (nextPC_ok hp).1
  exact ⟨t, ht, by rw [value, toNat_zext12], advanced.pc_of_nextPC hp, by rw [advanced.2]; exact frame⟩

/-- Settles O42: each of the two is one write of `I`, whose value is the masked sum or the masked glyph address. -/
theorem indexArithmeticIsMasked : Obligations.IndexArithmeticIsMasked := by
  intro s x h
  rw [exec_addI, execAddI, exec_ldF, execLdF]
  refine ⟨?addI, ?ldF⟩
  case addI =>
    obtain ⟨t, ht, value, rest⟩ := commit_setI (s.indexSum x) h
    exact ⟨t, ht, by rw [value, State.toNat_indexSum], rest⟩
  case ldF =>
    obtain ⟨t, ht, value, rest⟩ := commit_setI (glyphAddress s.cfg (s.lowNibble x)) h
    exact ⟨t, ht, by rw [value, toNat_glyphAddress, State.toNat_lowNibble], rest⟩

/-! ### Stores -/

/-- An Fx33 whose three bytes lie in memory and whose `pc` advance is accepted raises nothing (R123, R181). -/
theorem Instr.faults_ldB_eq_none (hi : s.i.toNat + 2 ≤ 0xFFF) (ha : s.accepts (s.pc.toNat + 2)) :
    (Instr.ldB x).faults s = none :=
  Instr.faults_none_iff.2 ⟨if_pos (by omega), ha⟩

/-- Fx33 stores the `k`-th digit at `I + k` (R123, R45). -/
theorem Instr.byteAt_writes_ldB {k : Nat} (s : State) (x : Reg) (h : k < 3) :
    ((Instr.ldB x).writes s).byteAt (s.i.toNat + k) = (decimalDigits (s.getV x)).getD k 0 :=
  Memory.read_writeBytes_inside h

/-- The three bytes of Fx33 as numbers: hundreds, tens, ones (R123). -/
theorem Machine.toNat_decimalDigits (b : Byte) : ((decimalDigits b).getD 0 0).toNat = b.toNat / 100 ∧
    ((decimalDigits b).getD 1 0).toNat = b.toNat / 10 % 10 ∧ ((decimalDigits b).getD 2 0).toNat = b.toNat % 10 := by
  have := b.isLt
  simp only [decimalDigits, List.getD_cons_zero, List.getD_cons_succ, BitVec.toNat_ofNat]
  omega

/-- Settles O43: the three bytes stored are the digits of `V[x]`. -/
theorem decimalStoreWritesThreeDigits : Obligations.DecimalStoreWritesThreeDigits := by
  intro s x hi ha
  have completes := exec_of_no_fault (Instr.faults_ldB_eq_none (x := x) hi ha)
  obtain ⟨hundreds, tens, ones⟩ := toNat_decimalDigits (s.getV x)
  have stored {k : Nat} (hk : k < 3) := congrArg BitVec.toNat (Instr.byteAt_writes_ldB s x hk)
  refine ⟨_, completes, (stored (k := 0) (by decide)).trans hundreds, (stored (k := 1) (by decide)).trans tens,
    (stored (k := 2) (by decide)).trans ones, fun a outside => ?_, ⟨toNat_ofNat_landing _, rfl⟩, rfl⟩
  exact onlyTheStoredBytesChange _ _ _ a completes (by rintro _ _ ⟨⟩; exact outside)

/-- Settles O44: the bytes stored are `V[0]` to `V[x]`. -/
theorem blockStoreWritesV0ToVx : Obligations.BlockStoreWritesV0ToVx := by
  intro s x hi ha
  have completes := exec_of_no_fault (Instr.faults_stRegs_eq_none hi ha)
  refine ⟨_, completes, fun r hr => Instr.byteAt_writes_stRegs s hr, fun a outside => ?_,
    ⟨toNat_ofNat_landing _, rfl⟩, rfl⟩
  exact onlyTheStoredBytesChange _ _ _ a completes (by rintro _ _ ⟨⟩; exact outside)

/-! ### The block load -/

/-- An Fx65 whose bytes lie in memory and whose `pc` advance is accepted raises nothing (R125, R181). -/
theorem Instr.faults_ldRegs_eq_none (hi : s.i.toNat + x.val ≤ 0xFFF) (ha : s.accepts (s.pc.toNat + 2)) :
    (Instr.ldRegs x).faults s = none :=
  Instr.faults_none_iff.2 ⟨if_pos (by omega), ha⟩

/-- Fx65 loads the byte at `I + r` into `V[r]` and leaves the registers above `V[x]` (R125, R12). -/
theorem Instr.getV_writes_ldRegs (s : State) (x r : Reg) :
    ((Instr.ldRegs x).writes s).getV r = if r ≤ x then s.byteAt (s.i.toNat + r.val) else s.getV r := by
  by_cases h : r ≤ x
  · have hr : r.val < x.val + 1 := Nat.lt_succ_of_le h
    rw [if_pos h]
    calc ((Instr.ldRegs x).writes s).getV r
        = (s.mem.readBytes s.cfg s.i.toNat (x.val + 1)).getD r.val 0 :=
          (getElem_setRegsFrom _ s.v 0 r.val r.isLt).trans (if_pos ⟨Nat.zero_le _, by simpa using hr⟩)
      _ = s.byteAt (s.i.toNat + r.val) := Memory.getD_readBytes hr
  · rw [if_neg h]
    exact Instr.writes_reg _ s r (decide_eq_false h)

/-- Settles O45: every register is a loaded byte or kept. -/
theorem blockLoadReadsV0ToVx : Obligations.BlockLoadReadsV0ToVx := by
  intro s x hi ha
  exact ⟨_, exec_of_no_fault (Instr.faults_ldRegs_eq_none hi ha), Instr.getV_writes_ldRegs s x,
    ⟨toNat_ofNat_landing _, rfl⟩, rfl⟩

/-- Settles O46: Fx55 keeps `I`, so the Fx65 loads from where the registers were stored. -/
theorem blockStoreThenLoadRoundTrips : Obligations.BlockStoreThenLoadRoundTrips := by
  intro s x hi ha
  obtain ⟨t, ht, stored, _, _, frame⟩ := blockStoreWritesV0ToVx s x hi ha
  have kept : t.i = s.i := by rw [frame]
  refine ⟨t, ht, fun u hu same hua => ?_⟩
  obtain ⟨w, hw, loaded, _⟩ := blockLoadReadsV0ToVx u x (by rw [hu, kept]; exact hi) hua
  exact ⟨w, hw, fun r hr => by rw [loaded, if_pos hr, hu, same r.val hr, kept, stored r hr]⟩

end Sys2Proof
end

section
/-!
SUPPORT. The sprite collision detector (spec/43_display_sprite.md): the pixels and the collision of a whole sprite in terms
of `spriteHits`, and what 00E0 and Dxyn answer.
-/

namespace Sys2Proof

open Machine

variable {cfg : Config} {fb : FrameBuffer} {rows : List Byte} {x y r c : Nat}

/-! ### One sprite row -/

/-- The column wraps (R146). -/
theorem Machine.rowPixels_add_width (w h : Nat) (b : Byte) (x y : Nat) :
    rowPixels w h b (x + w) y = rowPixels w h b x y := by
  simp only [rowPixels, Nat.add_right_comm x w, Nat.add_mod_right]

/-- The row wraps (R146). -/
theorem Machine.rowPixels_add_height (w h : Nat) (b : Byte) (x y : Nat) :
    rowPixels w h b x (y + h) = rowPixels w h b x y := by
  simp only [rowPixels, Nat.add_mod_right]

/-- Settles O51: the two rows have the same pixels. -/
theorem drawWrapsOnBothAxes : Obligations.DrawWrapsOnBothAxes := by
  intro w h b x y fb
  simp only [drawSpriteRow_eq, rowPixels_add_width, rowPixels_add_height, and_self]

/-! ### CLS -/

/-- Settles O48: the blank array is committed with `NextPC()`, or neither is. -/
theorem clearBlanksEveryPixel : Obligations.ClearBlanksEveryPixel := by
  intro s
  rw [exec_cls, execCls]
  refine ⟨fun p hp => ?_, fun e he => commit_nextPC_error he rfl rfl⟩
  obtain ⟨accepted, landed⟩ := nextPC_ok hp
  refine ⟨_, commit_advance rfl rfl accepted, pixelAt_blank s.cfg, FrameBuffer.wf_blank s.cfg, ?_, rfl⟩
  exact BitVec.eq_of_toNat_eq ((toNat_ofNat_landing _).trans landed.symm)

/-! ### A whole sprite -/

/-- A sprite flips a pixel once per 1 bit that lands on it (R142, R144). -/
theorem Machine.pixelAt_drawSprite (hf : FrameBuffer.wf cfg fb) (hr : r < cfg.displayH) (hc : c < cfg.displayW) :
    pixelAt (drawSprite cfg rows x y fb).2 r c =
      (pixelAt fb r c ^^ decide (spriteHits cfg rows x y r c % 2 = 1)) := by
  rw [drawSprite_eq, pixelAt_drawPixels hr hc _ _ _ hf, count_spritePixels]

/-- A sprite drawn twice flips every pixel an even number of times (R145). -/
theorem Machine.drawSprite_drawSprite (hf : FrameBuffer.wf cfg fb) :
    (drawSprite cfg rows x y (drawSprite cfg rows x y fb).2).2 = fb := by
  have once := FrameBuffer.wf_drawSprite hf rows x y
  refine FrameBuffer.ext_of_pixels (FrameBuffer.wf_drawSprite once rows x y) hf fun r c hr hc => ?_
  rw [pixelAt_drawSprite once hr hc, pixelAt_drawSprite hf hr hc, Bool.xor_assoc, Bool.xor_self, Bool.xor_false]

theorem Machine.mem_spritePixels_iff_hits :
    (r, c) ∈ spritePixels cfg.displayW cfg.displayH x y rows ↔ spriteHits cfg rows x y r c ≠ 0 := by
  rw [← List.count_pos_iff, count_spritePixels, Nat.pos_iff_ne_zero]

/-- When no two bits share a pixel, a sprite collides exactly when a pixel that it hits was lit (R142). -/
theorem Machine.drawSprite_collision (hcfg : cfg.wf) (hf : FrameBuffer.wf cfg fb) (hw : 8 ≤ cfg.displayW)
    (hl : rows.length ≤ cfg.displayH) :
    (drawSprite cfg rows x y fb).1 = true ↔ ∃ r c, r < cfg.displayH ∧ c < cfg.displayW ∧
      spriteHits cfg rows x y r c ≠ 0 ∧ pixelAt fb r c = true := by
  have inside {p : Nat × Nat} (hp : p ∈ spritePixels cfg.displayW cfg.displayH x y rows) :
      p.1 < cfg.displayH ∧ p.2 < cfg.displayW := spritePixels_inside hcfg.1 hcfg.2.1 hp
  rw [drawSprite_eq, drawPixels_collision _ _ hf (nodup_spritePixels hw rows hl) (fun _ => inside)]
  constructor
  · rintro ⟨⟨r, c⟩, hp, lit⟩
    exact ⟨r, c, (inside hp).1, (inside hp).2, mem_spritePixels_iff_hits.1 hp, lit⟩
  · rintro ⟨r, c, _, _, hit, lit⟩
    exact ⟨(r, c), mem_spritePixels_iff_hits.2 hit, lit⟩

/-- When no two bits share a pixel, a pixel is hit once or not at all. -/
theorem Machine.spriteHits_le_one (hw : 8 ≤ cfg.displayW) (hl : rows.length ≤ cfg.displayH) :
    spriteHits cfg rows x y r c ≤ 1 := by
  rw [← count_spritePixels]
  exact List.nodup_iff_count_le_one.1 (nodup_spritePixels hw rows hl) (r, c)

/-- A byte other than 0 has a 1 bit, counted from the left as in a sprite row. -/
theorem Machine.exists_bit_iff_ne_zero (b : Byte) : (∃ j, j < 8 ∧ b.getLsbD (7 - j) = true) ↔ b ≠ 0 := by
  have zeros (i : Nat) : (0 : Byte).getLsbD i = false := BitVec.getLsbD_zero
  refine ⟨fun ⟨j, _, set⟩ zero => ?_, fun hb => ?_⟩
  · rw [zero, zeros] at set
    exact Bool.false_ne_true set
  · by_contra unset
    refine hb (BitVec.eq_of_getLsbD_eq fun i hi => ?_)
    rw [zeros, ← Bool.not_eq_true]
    exact fun set => unset ⟨7 - i, by omega, by rwa [Nat.sub_sub_self (by omega)]⟩

/-- A sprite hits a pixel of the display exactly when it has a 1 bit. -/
theorem Machine.exists_hit_iff_exists_bit (hcfg : cfg.wf) :
    (∃ r c, r < cfg.displayH ∧ c < cfg.displayW ∧ spriteHits cfg rows x y r c ≠ 0) ↔
      ∃ k, k < rows.length ∧ rows.getD k 0 ≠ 0 := by
  simp only [← mem_spritePixels_iff_hits, ← exists_bit_iff_ne_zero]
  constructor
  · rintro ⟨r, c, _, _, hp⟩
    obtain ⟨k, j, hk, hj, set, _⟩ := (mem_spritePixels rows).1 hp
    exact ⟨k, hk, j, hj, set⟩
  · rintro ⟨k, hk, j, hj, set⟩
    have hp : ((y + k) % cfg.displayH, (x + j) % cfg.displayW) ∈ spritePixels cfg.displayW cfg.displayH x y rows :=
      (mem_spritePixels rows).2 ⟨k, j, hk, hj, set, rfl⟩
    obtain ⟨hr, hc⟩ := spritePixels_inside hcfg.1 hcfg.2.1 hp
    exact ⟨_, _, hr, hc, hp⟩

/-- On a clear display nothing is lit to collide with (R145). -/
theorem Machine.drawSprite_blank_collision (hcfg : cfg.wf) (hw : 8 ≤ cfg.displayW) (hl : rows.length ≤ cfg.displayH) :
    (drawSprite cfg rows x y (blankFB cfg)).1 = false := by
  rw [← Bool.not_eq_true, drawSprite_collision hcfg (FrameBuffer.wf_blank cfg) hw hl]
  rintro ⟨r, c, _, _, _, lit⟩
  rw [pixelAt_blank] at lit
  exact Bool.false_ne_true lit

/-- On a clear display a sprite lights every pixel that it hits, when no two bits share one (R142). -/
theorem Machine.pixelAt_drawSprite_blank_of_hit (hw : 8 ≤ cfg.displayW) (hl : rows.length ≤ cfg.displayH)
    (hr : r < cfg.displayH) (hc : c < cfg.displayW) (hit : spriteHits cfg rows x y r c ≠ 0) :
    pixelAt (drawSprite cfg rows x y (blankFB cfg)).2 r c = true := by
  have once : spriteHits cfg rows x y r c = 1 := le_antisymm (spriteHits_le_one hw hl) (Nat.pos_of_ne_zero hit)
  rw [pixelAt_drawSprite (FrameBuffer.wf_blank cfg) hr hc, pixelAt_blank, once]
  rfl

/-- A sprite over its own drawing on a clear display collides exactly when it has a 1 bit (R145). -/
theorem Machine.drawSprite_again_collision (hcfg : cfg.wf) (hw : 8 ≤ cfg.displayW) (hl : rows.length ≤ cfg.displayH) :
    (drawSprite cfg rows x y (drawSprite cfg rows x y (blankFB cfg)).2).1 = true ↔
      ∃ k, k < rows.length ∧ rows.getD k 0 ≠ 0 := by
  rw [drawSprite_collision hcfg (FrameBuffer.wf_drawSprite (FrameBuffer.wf_blank cfg) rows x y) hw hl,
    ← exists_hit_iff_exists_bit (x := x) (y := y) hcfg]
  exact exists₂_congr fun r c => and_congr_right fun hr => and_congr_right fun hc =>
    and_iff_left_of_imp (pixelAt_drawSprite_blank_of_hit hw hl hr hc)

/-! ### Dxyn -/

/-- What a flag reads as: 0 or 1, and 1 exactly when it is set. -/
theorem Machine.bit_and_eq_one_iff_of_eq_ite {n : Nat} {b : Bool} (h : n = if b = true then 1 else 0) :
    (n = 0 ∨ n = 1) ∧ (n = 1 ↔ b = true) := by
  cases b <;> simp [h]

/-- Settles O49: the state after Dxyn holds the drawn sprite, and its collision in `VF`. -/
theorem drawFlipsTheHitPixels : Obligations.DrawFlipsTheHitPixels := by
  intro s x y n rows hcfg hf hn ha hlen hrows
  obtain ⟨t, ht, drawn, collision, others, advanced, frame⟩ := drw_completes (x := x) (y := y) hn ha
    (Memory.eq_readBytes hlen hrows)
  obtain ⟨bit, collides⟩ := bit_and_eq_one_iff_of_eq_ite collision
  refine ⟨t, ht, fun r c hr hc => ?_, ?_, bit, fun hw hl => ?_, advanced, others, frame⟩
  · rw [drawn, pixelAt_drawSprite hf hr hc]
  · rw [drawn]
    exact FrameBuffer.wf_drawSprite hf rows _ _
  · rw [collides, drawSprite_collision hcfg hf hw (hlen.trans_le hl)]

/-- Settles O50: the second drawing undoes the first, and collides where the first one lit a pixel. -/
theorem drawIsInvolutive : Obligations.DrawIsInvolutive := by
  intro s x y n hcfg hw hl hblank hn ha
  have hlen := Memory.length_readBytes (m := s.mem) (cfg := s.cfg) (a := s.i.toNat) n
  obtain ⟨t, ht, drawn, collision, _⟩ := drw_completes (x := x) (y := y) hn ha rfl
  rw [hblank] at drawn collision
  rw [drawSprite_blank_collision hcfg hw (hlen.trans_le hl)] at collision
  refine ⟨t, ht, collision, fun u hc hfb hi hm hx hy hua => ?_⟩
  obtain ⟨w, hw', redrawn, collision', _⟩ := drw_completes (x := x) (y := y) (by rw [hi]; exact hn) hua rfl
  rw [hc, hfb, hi, hm, hx, hy, drawn] at redrawn collision'
  obtain ⟨bit, collides⟩ := bit_and_eq_one_iff_of_eq_ite collision'
  refine ⟨w, hw', redrawn.trans (drawSprite_drawSprite (FrameBuffer.wf_blank s.cfg)), ?_, bit⟩
  rw [collides, drawSprite_again_collision hcfg hw (hlen.trans_le hl), hlen]
  exact exists_congr fun k => and_congr_right fun hk => by rw [Memory.getD_readBytes hk, State.byteAt]

end Sys2Proof
end

section
/-!
SUPPORT. Keys and timers (spec/44_keys_timers.md): the key skips, the wait for a key and the `keyDown` that ends it, the
copies between a timer and a register, and the timers under one tick and under many.
-/

namespace Sys2Proof

open Machine

variable {s : State} {rest : List Operation}

/-! ### The key skips -/

theorem Machine.State.keys_of_pending {keys : BitVec 16} {rnd : Byte} (hp : s.pending = .step keys rnd :: rest) :
    s.keys = keys := by
  rw [State.keys, hp]

/-- A conditional skip that could skip completes, skipping or not, and only moves `pc` (R88). -/
theorem Machine.commit_skipIf_of_accepts (c : Bool) (ha : s.accepts (s.pc.toNat + 4)) :
    ∃ t, commit s (skipIf c s) = .next t ∧ t.pc.toNat = landing (s.pc.toNat + (if c then 4 else 2)) ∧
      t = { s with pc := t.pc, out := .done } :=
  have accepted : s.accepts (s.pc.toNat + (if c then 4 else 2)) := State.accepts_mono ha (by split <;> omega)
  ⟨_, commit_skipIf accepted, toNat_ofNat_landing _, rfl⟩

/-- Settles O30: both are conditional skips, on the level of the named key and on its negation. -/
theorem keySkipsTestTheNamedKey : Obligations.KeySkipsTestTheNamedKey := by
  intro s x keys rnd rest hp ha
  rw [exec_skp, execSkp, exec_sknp, execSknp, State.keyIsDown_eq, State.keys_of_pending hp]
  generalize keys.getLsbD ((s.getV x).toNat % 16) = down
  have negated : (if down = true then 2 else 4) = if (!down) = true then 4 else 2 := by cases down <;> rfl
  rw [negated]
  exact ⟨commit_skipIf_of_accepts down ha, commit_skipIf_of_accepts (!down) ha⟩

/-! ### The wait for a key -/

/-- Settles O52: the writes of `KREG` and `MODE` are committed with an accepted advance of `pc`. -/
theorem keyWaitBegins : Obligations.KeyWaitBegins := by
  intro s x ha
  rw [exec_ldVxK, execLdVxK]
  exact ⟨_, commit_advance rfl rfl ha, rfl, rfl, ⟨toNat_ofNat_landing _, rfl⟩, rfl⟩

/-- Settles O53: a waiting machine takes the key, whose index is the same number as a byte, and any other discards it. -/
theorem keyDownEndsTheWait : Obligations.KeyDownEndsTheWait := by
  intro s k rest hp
  have performed : step s = .next (keyDownOp k s).endOp := step_of_pending hp
  rw [performed]
  rcases keyDownOp_cases k s with ⟨waiting, he⟩ | ⟨notWaiting, he⟩ <;> rw [he]
  · refine ⟨fun _ => ⟨_, rfl, rfl, ?_, fun r hr => State.getV_setV_ne _ hr, rfl⟩, fun h => absurd waiting h⟩
    exact (congrArg BitVec.toNat (State.getV_setV_self s s.kreg _)).trans (BitVec.toNat_setWidth_of_le (by decide))
  · exact ⟨fun h => absurd h notWaiting, fun _ => rfl⟩

/-! ### The timer instructions -/

/-- What ends with `NextPC()` completes at the `pc` that `NextPC()` gives (R66). -/
theorem Machine.commit_nextPC_ok {u p : State} (hp : nextPC s = .ok p) (hcfg : u.cfg = s.cfg) (hpc : u.pc = s.pc) :
    commit s (nextPC u) = .next { u with pc := p.pc, out := .done } := by
  obtain ⟨accepted, rfl⟩ := setPC_ok hp
  exact commit_advance hcfg hpc accepted

/-- Settles O54: each of the three is one write, committed with `NextPC()`, or neither is. -/
theorem timerInstructionsCopy : Obligations.TimerInstructionsCopy := by
  intro s x
  rw [exec_ldVxDT, execLdVxDT, exec_ldDTVx, execLdDTVx, exec_ldSTVx, execLdSTVx]
  obtain ⟨copied, raised⟩ := commit_setV_nextPC s x s.dt
  exact ⟨fun p hp => ⟨copied p hp, ⟨_, commit_nextPC_ok hp rfl rfl, rfl, rfl, rfl⟩,
      ⟨_, commit_nextPC_ok hp rfl rfl, rfl, rfl, rfl⟩⟩,
    fun e he => ⟨raised e he, commit_nextPC_error he rfl rfl, commit_nextPC_error he rfl rfl⟩⟩

/-! ### The timers under `decayTimers()` -/

/-- Settles O55: a pending tick is performed in every mode. -/
theorem decayLowersEachTimer : Obligations.DecayLowersEachTimer := by
  intro s rest hp
  exact ⟨(decayTimersOp s).endOp, step_of_pending hp, toNat_decay s.dt, toNat_decay s.st, rfl⟩

/-- The sound is active exactly while `ST` is above 0 (R176). -/
theorem Machine.State.soundActive_eq (s : State) : s.soundActive = decide (0 < s.st.toNat) :=
  decide_eq_decide.2 (by rw [ne_eq, BitVec.toNat_eq, Nat.pos_iff_ne_zero]; rfl)

/-- `n` ticks lower each timer by `n` and stop at 0, as numbers: by induction on `n`, a tick taking one from each (R174). -/
theorem Machine.run_decayTimers (n : Nat) {s : State} (hp : s.pending = List.replicate n .decayTimers ++ rest) :
    ∃ t : State, Host.Core.run Sys2Proof.core n s = .next t ∧ t.dt.toNat = s.dt.toNat - n ∧
      t.st.toNat = s.st.toNat - n ∧ t.pending = rest := by
  induction n generalizing s with
  | zero => exact ⟨s, rfl, rfl, rfl, hp⟩
  | succ n ih =>
    obtain ⟨u, ticked, dt, st, frame⟩ := decayLowersEachTimer s _ hp
    have queue : u.pending = List.replicate n .decayTimers ++ rest := by rw [frame]; exact congrArg List.tail hp
    obtain ⟨t, ran, dt', st', remaining⟩ := ih queue
    exact ⟨t, (run_next ticked n).trans ran, by omega, by omega, remaining⟩

/-- Settles O56: a timer is its number, and `ST` less `n` is above 0 exactly while `n` is below `ST`. -/
theorem timersReachZeroAndStay : Obligations.TimersReachZeroAndStay := by
  intro n s rest hp
  obtain ⟨t, ran, dt, st, remaining⟩ := run_decayTimers n hp
  have sound : t.soundActive = decide (n < s.st.toNat) := by
    rw [State.soundActive_eq, st]
    exact decide_eq_decide.2 Nat.sub_pos_iff_lt
  exact ⟨t, ran, by rw [← dt, BitVec.ofNat_toNat, BitVec.setWidth_eq],
    by rw [← st, BitVec.ofNat_toNat, BitVec.setWidth_eq], sound, remaining⟩

end Sys2Proof
end

section
/-!
SUPPORT. Faults and modes (spec/60_exceptions.md): the mode after every operation, what entering `FAULTED` changes, and what
`FAULTED` keeps.
-/

namespace Sys2Proof

open Machine

variable {s t : State} {i : Instr}

/-! ### The transition table of R196 -/

theorem Machine.pending_of_stepsNext (h : s.stepsNext = true) :
    s.pending = [] ∨ ∃ keys rnd rest, s.pending = .step keys rnd :: rest := by
  unfold State.stepsNext at h
  split at h
  next hp => exact Or.inl hp
  next hp => exact Or.inr ⟨_, _, _, hp⟩
  next => cases h

theorem Machine.State.modeAfter_of_not_running (hn : s.stepsNext = true) (hm : s.mode ≠ .running) :
    s.modeAfter = s.mode := by
  obtain hp | ⟨_, _, _, hp⟩ := pending_of_stepsNext hn <;> simp [State.modeAfter, hp, hm]

theorem Machine.State.modeAfter_of_fetch_out (hn : s.stepsNext = true) (hm : s.mode = .running)
    (hpc : ¬ s.pc.toNat + 1 ≤ 0xFFF) : s.modeAfter = .faulted := by
  have hout : 0xFFF < s.pc.toNat + 1 := by omega
  obtain hp | ⟨_, _, _, hp⟩ := pending_of_stepsNext hn <;> simp only [State.modeAfter, hp, hm, hout] <;> rfl

theorem Machine.State.modeAfter_of_known (hn : s.stepsNext = true) (hm : s.mode = .running)
    (hpc : s.pc.toNat + 1 ≤ 0xFFF) (hd : decode s.nextWord = .ok i) :
    s.modeAfter = if (i.faults s).isSome then .faulted else (i.writes s).mode := by
  have hin : ¬ 0xFFF < s.pc.toNat + 1 := by omega
  rw [Instr.writes_mode]
  obtain hp | ⟨_, _, _, hp⟩ := pending_of_stepsNext hn <;> simp only [State.modeAfter, hp, hm, hin, hd] <;> rfl

theorem Machine.State.modeAfter_of_unknown {u : Unknown} (hn : s.stepsNext = true) (hm : s.mode = .running)
    (hpc : s.pc.toNat + 1 ≤ 0xFFF) (hd : decode s.nextWord = .error u) :
    s.modeAfter = if 0xFFF < s.pc.toNat + 2 ∧ s.cfg.pcOverflow = .fault then .faulted else .running := by
  have hin : ¬ 0xFFF < s.pc.toNat + 1 := by omega
  obtain hp | ⟨_, _, _, hp⟩ := pending_of_stepsNext hn <;> simp only [State.modeAfter, hp, hm, hin, hd] <;> rfl

/-- An instruction that raises faults; one that completes leaves the mode of its writes (R182, R163). -/
theorem mode_exec (h : exec i s = .next t) :
    t.mode = if (i.faults s).isSome then .faulted else (i.writes s).mode := by
  rcases exec_raises_or_completes h with ⟨hf, e, rfl⟩ | ⟨hf, rfl⟩
  · rw [if_pos (Option.isSome_iff_ne_none.2 hf), State.raise_mode]
  · rw [hf, if_neg (by decide)]

theorem Machine.mode_stepOp (hn : s.stepsNext = true) (h : stepOp s = .next t) : t.mode = s.modeAfter := by
  rcases stepOp_next_cases h with
    ⟨hm, r, rfl⟩ | ⟨hm, hpc, rfl⟩ | ⟨i, hm, hpc, hd, he⟩ | ⟨u, hm, hpc, hd, ⟨ha, rfl⟩ | ⟨ha, rfl⟩⟩
  · exact (State.modeAfter_of_not_running hn hm).symm
  · exact (State.modeAfter_of_fetch_out hn hm hpc).symm
  · rw [State.modeAfter_of_known hn hm hpc hd, mode_exec he]
  · rw [State.modeAfter_of_unknown hn hm hpc hd, if_neg (fun refused => State.not_accepts_iff.2 refused ha)]
    exact hm
  · rw [State.modeAfter_of_unknown hn hm hpc hd, if_pos (State.not_accepts_iff.1 ha), State.raise_mode]

theorem Machine.mode_loadProgramOp (bytes : List Byte) (s : State) : (loadProgramOp bytes s).mode = s.mode := by
  rcases loadProgramOp_cases bytes s with ⟨_, he⟩ | ⟨_, he⟩ <;> rw [he]

/-- A key ends a wait and does nothing to any other mode (R168). -/
theorem Machine.mode_keyDownOp (k : BitVec 4) (s : State) :
    (keyDownOp k s).mode = if s.mode = .awaitKey then .running else s.mode := by
  rcases keyDownOp_cases k s with ⟨hm, he⟩ | ⟨hm, he⟩ <;> rw [he]
  · rw [if_pos hm]
  · rw [if_neg hm]

/-- Settles O13: an instruction step has the row of its mode and its word, every other operation its own. -/
theorem modeFollowsTheTransitionTable : Obligations.ModeFollowsTheTransitionTable := by
  intro s t ht
  rcases step_next_cases ht with
    ⟨hn, u, hu, rfl⟩ | ⟨cfg, _, hp, _, rfl⟩ | ⟨_, hp, rfl⟩ | ⟨bytes, _, hp, rfl⟩ | ⟨_, hp, rfl⟩ | ⟨k, _, hp, rfl⟩ <;>
    rw [State.endOp_mode]
  case inl => exact mode_stepOp hn hu
  all_goals rw [State.modeAfter, hp]
  · rfl
  · rfl
  · exact mode_loadProgramOp bytes s
  · rfl
  · exact mode_keyDownOp k s

/-! ### Entering `FAULTED` -/

/-- An instruction that leaves the machine faulted raised: its writes alone never fault (R182). -/
theorem exec_eq_raise_of_faulted (hm : s.mode = .running) (h : exec i s = .next t) (hf : t.mode = .faulted) :
    ∃ e, t = s.raise e := by
  rcases exec_raises_or_completes h with ⟨_, raised⟩ | ⟨_, rfl⟩
  · exact raised
  · exact absurd hf (Instr.unfaulted_writes i hm)

theorem Machine.stepOp_eq_raise_of_faulted (hs : s.mode ≠ .faulted) (h : stepOp s = .next t)
    (hf : t.mode = .faulted) : ∃ e, t = s.raise e := by
  rcases stepOp_next_cases h with
    ⟨_, r, rfl⟩ | ⟨_, _, rfl⟩ | ⟨i, hm, _, _, he⟩ | ⟨u, hm, _, _, ⟨_, rfl⟩ | ⟨_, rfl⟩⟩
  · exact absurd hf hs
  · exact ⟨_, rfl⟩
  · exact exec_eq_raise_of_faulted hm he hf
  · exact absurd hf hs
  · exact ⟨_, rfl⟩

/-- No key takes a machine into `FAULTED` (R168). -/
theorem Machine.keyDownOp_unfaulted (hs : s.Unfaulted) (k : BitVec 4) : (keyDownOp k s).Unfaulted := by
  rw [State.Unfaulted, mode_keyDownOp]
  split
  · decide
  · exact hs

/-- Settles O14: of the six operations only an instruction step enters `FAULTED`, and it does so by a raise. -/
theorem faultLeavesNoPartialEffect : Obligations.FaultLeavesNoPartialEffect := by
  intro s t hs ht hf
  rcases step_next_cases ht with
    ⟨_, u, hu, rfl⟩ | ⟨cfg, _, _, _, rfl⟩ | ⟨_, _, rfl⟩ | ⟨bytes, _, _, rfl⟩ | ⟨_, _, rfl⟩ | ⟨k, _, _, rfl⟩ <;>
    rw [State.endOp_mode] at hf
  · obtain ⟨e, rfl⟩ := stepOp_eq_raise_of_faulted hs hu hf
    rfl
  · cases hf
  · cases hf
  · exact absurd ((mode_loadProgramOp bytes s).symm.trans hf) hs
  · exact absurd hf hs
  · exact absurd hf (keyDownOp_unfaulted hs k)

/-! ### Staying in `FAULTED` -/

/-- A state with other timers, memory and report, its bytes below the program origin kept (R183). -/
def Machine.State.keptInFault (s u : State) : Prop :=
  u = { s with dt := u.dt, st := u.st, mem := u.mem, out := u.out } ∧ ∀ a, a < 0x200 → u.byteAt a = s.byteAt a

/-- An operation that writes the report alone, as a step and a key do in `FAULTED` (R183). -/
theorem Machine.State.keptInFault_report (s : State) (r : Report) : s.keptInFault { s with out := r } :=
  ⟨rfl, fun _ _ => rfl⟩

theorem Machine.keptInFault_stepOp (hs : s.mode = .faulted) (h : stepOp s = .next t) : s.keptInFault t := by
  rw [stepOp_faulted hs] at h
  obtain rfl := Host.Outcome.next.inj h
  exact State.keptInFault_report s _

/-- A program is stored from 0x200 up (R212). -/
theorem Machine.keptInFault_loadProgramOp (bytes : List Byte) (s : State) : s.keptInFault (loadProgramOp bytes s) := by
  rcases loadProgramOp_cases bytes s with ⟨_, he⟩ | ⟨_, he⟩ <;> rw [he]
  · exact ⟨rfl, fun a ha => Memory.read_writeBytes_outside (Or.inl ha)⟩
  · exact State.keptInFault_report s _

theorem Machine.keptInFault_keyDownOp (hs : s.mode = .faulted) (k : BitVec 4) : s.keptInFault (keyDownOp k s) := by
  rcases keyDownOp_cases k s with ⟨hm, _⟩ | ⟨_, he⟩
  · rw [hs] at hm; cases hm
  · rw [he]; exact State.keptInFault_report s _

/-- The operation's leaving the queue changes none of it (log entry 8). -/
theorem Machine.State.keptInFault.endOp {u : State} (h : s.keptInFault u) :
    u.endOp = { s with dt := u.endOp.dt, st := u.endOp.st, mem := u.endOp.mem, out := u.endOp.out }.endOp ∧
      ∀ a, a < 0x200 → u.endOp.byteAt a = s.byteAt a :=
  ⟨congrArg State.endOp h.1, h.2⟩

/-- Settles O15: a step and a key write the report, a tick the timers, `loadProgram` the bytes from 0x200 up. -/
theorem faultedIsLeftOnlyByResetOrPowerOn : Obligations.FaultedIsLeftOnlyByResetOrPowerOn := by
  intro s t hs ht
  rcases step_next_cases ht with
    ⟨_, u, hu, rfl⟩ | ⟨cfg, rest, hp, _, rfl⟩ | ⟨rest, hp, rfl⟩ | ⟨bytes, _, _, rfl⟩ | ⟨_, _, rfl⟩ | ⟨k, _, _, rfl⟩
  · exact Or.inr (Or.inr (keptInFault_stepOp hs hu).endOp)
  · exact Or.inr (Or.inl ⟨cfg, rest, hp⟩)
  · exact Or.inl ⟨rest, hp⟩
  · exact Or.inr (Or.inr (keptInFault_loadProgramOp bytes s).endOp)
  · exact Or.inr (Or.inr ⟨rfl, fun _ _ => rfl⟩)
  · exact Or.inr (Or.inr (keptInFault_keyDownOp hs k).endOp)

end Sys2Proof
end

section
/-!
SUPPORT. Reset, program load and the conventional halt (spec/70_reset_and_hazards.md): what `power_on` and `reset()` leave in
every field, what `loadProgram` writes, and that a jump to its own address stays put.
-/

namespace Sys2Proof

open Machine

variable {s : State} {cfg : Config}

/-! ### The power-on values -/

@[simp] theorem Machine.getV_powerOn (cfg : Config) (r : Reg) : (State.powerOn cfg).getV r = 0 := by
  rw [State.getV, State.powerOn_v, Vector.getElem_replicate]

@[simp] theorem Machine.getElem_powerOn_stack (cfg : Config) (k : Fin 16) : (State.powerOn cfg).stack[k.val] = 0 :=
  eq_zero_of_mem_powerOn_stack (cfg := cfg) (Vector.mem_toList_iff.2 (Vector.getElem_mem k.isLt))

/-- At power-on the bytes from `FONT_BASE` up are `FONT_DATA` (R26). -/
theorem Machine.background_font (h : cfg.wf) {j : Nat} (hj : j < 16 * cfg.fontStride) :
    background cfg (cfg.fontBase + j) = cfg.fontData.getD j 0 := by
  obtain ⟨_, _, hlen, _⟩ := h
  have inTable : j < cfg.fontData.length := by omega
  rw [background, if_pos (Nat.le_add_right _ _), Nat.add_sub_cancel_left, List.getElem?_eq_getElem inTable,
    Option.getD_some, List.getD_eq_getElem _ _ inTable]

/-- At power-on a byte below or above the font table is `MEM_FILL` (R26, D5). -/
theorem Machine.background_outside_font (h : cfg.wf) {a : Nat}
    (ha : a < cfg.fontBase ∨ cfg.fontBase + 16 * cfg.fontStride ≤ a) : background cfg a = cfg.memFill := by
  obtain ⟨_, _, hlen, _⟩ := h
  rcases ha with below | above
  · exact if_neg (by omega)
  · have pastTable : cfg.fontData.length ≤ a - cfg.fontBase := by omega
    rw [background, if_pos (by omega), List.getElem?_eq_none pastTable, Option.getD_none]

/-! ### `power_on` and `reset()` -/

theorem Machine.step_powerOn {rest : List Operation} (hp : s.pending = .powerOn cfg :: rest) (h : cfg.wf) :
    step s = .next (powerOnOp cfg s).endOp := by
  rw [step_of_pending hp, perform_powerOn_of_wf h, endOperation_next]

/-- Settles O59: memory restarts empty, so that every byte reads as the background of the configuration. -/
theorem powerOnInitialisesEverything : Obligations.PowerOnInitialisesEverything := by
  intro s cfg rest hp h
  exact ⟨_, step_powerOn hp h, getV_powerOn cfg, rfl, rfl, rfl, getElem_powerOn_stack cfg, rfl, rfl, rfl, rfl, rfl, rfl,
    rfl, pixelAt_blank cfg, fun _ hj => background_font h hj, fun _ ha => background_outside_font h ha⟩

/-- Settles O58: `reset()` is a `power_on` with the present configuration that keeps `Mem` and `FB`, in every mode. -/
theorem resetRestartsWithoutReloading : Obligations.ResetRestartsWithoutReloading := by
  intro s rest hp
  exact ⟨(resetOp s).endOp, step_of_pending hp, getV_powerOn s.cfg, rfl, rfl, rfl, getElem_powerOn_stack s.cfg,
    rfl, rfl, rfl, rfl, rfl, rfl, rfl, rfl, rfl⟩

theorem Machine.inv_powerOn (h : cfg.wf) : (State.powerOn cfg).Inv := inv_powerOnOp h (State.powerOn cfg)

/-- Settles O11: `State.reset` is the power-on state of the default configuration, whose font table ends at 0x050. -/
theorem powerOnStateIsLegal : Obligations.PowerOnStateIsLegal :=
  have defaultWf : defaultConfig.wf := by decide
  ⟨fun _ h => inv_powerOn h, inv_powerOn defaultWf⟩

/-! ### `loadProgram` -/

/-- Settles O57: an image that fits is one write of its bytes at the program origin, any other is only reported. -/
theorem loadProgramWritesVerbatimOrNothing : Obligations.LoadProgramWritesVerbatimOrNothing := by
  intro s bytes rest hp
  have performed : step s = .next (loadProgramOp bytes s).endOp := step_of_pending hp
  rcases loadProgramOp_cases bytes s with ⟨fits, loaded⟩ | ⟨tooLong, refused⟩
  · refine ⟨fun _ => ⟨_, by rw [performed, loaded], ?_, ?_, rfl⟩, fun h => absurd fits h.not_ge⟩
    · exact fun j hj => Memory.read_writeBytes_inside hj
    · exact fun a ha => Memory.read_writeBytes_outside ha
  · exact ⟨fun h => absurd h tooLong, fun _ => by rw [performed, refused]⟩

/-! ### The conventional halt -/

/-- A jump to its own address writes to `pc` the value it holds (R81, R214). -/
theorem Machine.exec_jp_self {nnn : BitVec 12} (h : nnn.toNat = s.pc.toNat) :
    exec (.jp nnn) s = .next { s with out := .done } := by
  have samePc : zext12 nnn = s.pc := BitVec.eq_of_toNat_eq ((toNat_zext12 nnn).trans h)
  rw [exec_jp, execJp, commit_ok, samePc]

/-- Settles O32: the word at `pc` is fetched and jumps to its own address. -/
theorem selfJumpStaysPut : Obligations.SelfJumpStaysPut := by
  rintro s hn hm ⟨hpc, nnn, hd, hself⟩
  rw [step_of_stepsNext hn, stepOp_running hm, runInstruction_known hpc hd, exec_jp_self hself, endOperation_next]

end Sys2Proof
end
